-- ==== Sys2Proof/Word.lean ====
section
/-! DEFINITION. The widths of rule R13 (00_scope.md): bytes and characters, nibbles, 32-bit words, 64-bit counters. -/

namespace Sys2Proof

/-- A byte of data, or a character code, on the data-in or sink port (R13, R15, R16). -/
abbrev Byte := BitVec 8

/-- A nibble, an integer in [0,15] (R15). -/
abbrev Nibble := BitVec 4

/-- A command word, a response word or a 32-bit register (R13). -/
abbrev Word := BitVec 32

/-- A 64-bit counter, which wraps modulo 2^64 (R13). -/
abbrev Count := BitVec 64

end Sys2Proof
end

