-- ==== Sys2Proof/Config.lean ====
section
/-! DEFINITION. The parameters of rules R10 and R11 (00_scope.md): their default values and their ranges.
The values a machine runs with are fields of State, which no step changes (log 3), so that statements quantify over them. -/

namespace Sys2Proof.Config

/-- P_CHUNK_MAX of this hardware: 256 KiB (R10). -/
def chunkMaxDefault : Word := 262144

/-- P_WRAP_BYTES of this hardware (R11). -/
def wrapBytesDefault : Word := 32

/-- The range R10 gives P_CHUNK_MAX: 1 to 2^24 - 1. -/
abbrev chunkMaxInRange (c : Word) : Prop := 1 ≤ c.toNat ∧ c.toNat ≤ 2 ^ 24 - 1

/-- The range R11 gives P_WRAP_BYTES: 1 to 2^32 - 1 (the upper bound is the register's width). -/
abbrev wrapBytesInRange (w : Word) : Prop := 1 ≤ w.toNat

end Sys2Proof.Config
end

