-- ==== Sys2Proof/Syntax.lean ====
section
/-! DEFINITION. The eight commands (30_encoding.md R68, R71), one constructor per row of the opcode table. -/

namespace Sys2Proof

/-- Field K of IOERR: which external transfer failed (R68, R125). -/
inductive IoSide where
  /-- K = 0: the input source failed a read -/
  | read
  /-- K = 1: the sink failed a write -/
  | write
deriving DecidableEq, Repr

/-- A command of the CORE. Every operand is an unsigned field taken as it stands (R70). -/
inductive Instr where
  /-- NOP (R122) -/
  | nop
  /-- CFG V: V is the new CFG[6:0] (R123) -/
  | cfg (v : BitVec 7)
  /-- LUT_N2C N (R88) -/
  | lutN2c (n : Nibble)
  /-- LUT_C2N CH (R89) -/
  | lutC2n (ch : Byte)
  /-- CHUNK L: L data bytes follow on the data-in port (R109) -/
  | chunk (l : BitVec 24)
  /-- ABORT (R124) -/
  | abort
  /-- IOERR K (R125) -/
  | ioerr (k : IoSide)
  /-- RDREG IDX (R126) -/
  | rdreg (idx : Byte)
deriving DecidableEq, Repr

end Sys2Proof
end

