-- ==== Sys2Proof/WellFormed.lean ====
section
/-! DEFINITION. Well-formed commands: the two field values that rule R74 refuses, and no other (30_encoding.md). -/

namespace Sys2Proof

/-- R74, for a CORE whose P_CHUNK_MAX is `chunkMax`: a CHUNK's L is at most P_CHUNK_MAX and an RDREG's IDX at most 14;
every other field value is legal. -/
def Instr.wellFormed (chunkMax : Word) : Instr → Bool
  | .nop => true
  | .cfg _ => true
  | .lutN2c _ => true
  | .lutC2n _ => true
  | .chunk l => decide (l.toNat ≤ chunkMax.toNat)
  | .abort => true
  | .ioerr _ => true
  | .rdreg idx => decide (idx.toNat ≤ 14)

end Sys2Proof
end

