-- ==== Sys2Proof/Decode.lean ====
section
/-! DEFINITION. Command words to commands and back: the opcode map R71, the formats R68, the refusals R72 and R73
(30_encoding.md). The refusals by value (R74) are decided by the commands' meanings, since L is compared with a parameter (log 10). -/

namespace Sys2Proof

/-- Why a word is no command: both are answered REJ_ILLEGAL (R121). -/
inductive Reject where
  /-- OP is 0x8 to 0xF (R73) -/
  | reservedOpcode
  /-- OP is 0x0 to 0x7 and a reserved bit of its format is set (R72) -/
  | reservedBits
deriving DecidableEq, Repr

/-- A row of the opcode map (R71): a word selects the row when `w &&& mask = code`. -/
structure Row where
  code : Word
  mask : Word
deriving DecidableEq, Repr

/-- R71, the row of each opcode; none for the reserved ones. -/
def rowOf : Nat → Option Row
  | 0 => some ⟨0x00000000, 0xFFFFFFFF⟩
  | 1 => some ⟨0x10000000, 0xFFFFFF80⟩
  | 2 => some ⟨0x20000000, 0xFFFFFFF0⟩
  | 3 => some ⟨0x30000000, 0xFFFFFF00⟩
  | 4 => some ⟨0x40000000, 0xFF000000⟩
  | 5 => some ⟨0x50000000, 0xFFFFFFFF⟩
  | 6 => some ⟨0x60000000, 0xFFFFFFFE⟩
  | 7 => some ⟨0x70000000, 0xFFFFFF00⟩
  | _ => none

/-- OP = w[31:28] (R67). -/
def opField (w : Word) : Nat := (w.extractLsb' 28 4).toNat

/-- Field K = w[0] (R68). -/
def ioSideOf (w : Word) : IoSide := if w.getLsbD 0 then .write else .read

/-- R68 and R70: the command of an opcode with its operand fields taken from the word. -/
def operandsOf (op : Nat) (w : Word) : Option Instr :=
  match op with
  | 0 => some .nop
  | 1 => some (.cfg (w.extractLsb' 0 7))
  | 2 => some (.lutN2c (w.extractLsb' 0 4))
  | 3 => some (.lutC2n (w.extractLsb' 0 8))
  | 4 => some (.chunk (w.extractLsb' 0 24))
  | 5 => some .abort
  | 6 => some (.ioerr (ioSideOf w))
  | 7 => some (.rdreg (w.extractLsb' 0 8))
  | _ => none

/-- R75 up to the reserved bits: the command a word encodes, or why it encodes none. -/
def decode (w : Word) : Except Reject Instr :=
  match rowOf (opField w), operandsOf (opField w) w with
  | some row, some i => if w &&& row.mask = row.code then .ok i else .error .reservedBits
  | _, _ => .error .reservedOpcode

/-- Field K of an IOERR word (R68). -/
def ioBit : IoSide → BitVec 1
  | .read => 0
  | .write => 1

/-- R68: the word of a command, its opcode in 31:28, its reserved bits 0, its operand in the low bits. -/
def encode : Instr → Word
  | .nop => 0x0#4 ++ 0#28
  | .cfg v => 0x1#4 ++ 0#21 ++ v
  | .lutN2c n => 0x2#4 ++ 0#24 ++ n
  | .lutC2n ch => 0x3#4 ++ 0#20 ++ ch
  | .chunk l => 0x4#4 ++ 0#4 ++ l
  | .abort => 0x5#4 ++ 0#28
  | .ioerr k => 0x6#4 ++ 0#27 ++ ioBit k
  | .rdreg idx => 0x7#4 ++ 0#20 ++ idx

/-- The command word the opcode table numbers as `w`, `nbits` bits wide: a command word is one 32-bit value taken whole by the
command port (R54, R67), so bit i of the table is bit i of the word, and every bit from `nbits` up is 0. -/
def tableWord (nbits w : Nat) : Word := BitVec.ofNat 32 (w % 2 ^ nbits)

/-- What the decoder reads from a word of the opcode table. -/
def decodeTableWord (nbits w : Nat) : Option Instr :=
  match decode (tableWord nbits w) with
  | .ok i => some i
  | .error _ => none

end Sys2Proof
end

