-- ==== Sys2Proof/Machine/State.lean ====
section
/-! DEFINITION. The state of the CORE and of its ports (10_state.md), the reasons a step can stop, and the state after reset. -/

namespace Sys2Proof.Machine

/-- STATUS.STATE (R30). Value 3 is never taken and has no constructor (I19, log 9). -/
inductive SessionState where
  /-- 0: no session is open -/
  | idle
  /-- 1: a session is open -/
  | active
  /-- 2: an error has been latched -/
  | error
deriving DecidableEq, Repr

/-- STATUS.ERR (R31). Values 4 to 7 are never taken and have no constructor (I19, log 9). -/
inductive ErrKind where
  /-- 0: NONE -/
  | none
  /-- 1: InvalidDigit -/
  | invalidDigit
  /-- 2: InvalidAlignment -/
  | invalidAlignment
  /-- 3: IOFailure -/
  | ioFailure
deriving DecidableEq, Repr

/-- The register STATUS by its fields (R29). Its bits 31:6 are reserved and read 0. -/
structure Status where
  state : SessionState
  err : ErrKind
  done : Bool
deriving DecidableEq, Repr

/-- Field ACC of a response (R77). Value 3 is never returned and has no constructor (I19). -/
inductive Acc where
  /-- 0: the command executed -/
  | accepted
  /-- 1: the word is illegal -/
  | rejIllegal
  /-- 2: the command is not permitted in the current state -/
  | rejState
deriving DecidableEq, Repr

/-- The response to a command word (R76). -/
structure Response where
  rsp : Word
  rdata : Word
deriving DecidableEq, Repr

/-- What the host puts on the command port, in order: a command word (R51), or an assertion of the reset input (R143, log 6). -/
inductive HostInput where
  | word (w : Word)
  | reset
deriving DecidableEq, Repr

/-- The registers RDREG reads, in the order of their indices 0 to 14 (R47). -/
inductive RegName where
  | status | cfg | res | decPend | lineBytes | lastNl | errChar
  | errOffsetLo | errOffsetHi | inCountLo | inCountHi | outCountLo | outCountHi
  | pchunk | pwrap
deriving DecidableEq, Repr

/-- The CORE's registers (10_state.md) and the state of its ports (R45). -/
structure State where
  /-- CFG (R20) -/
  cfg : Word
  /-- STATUS (R29) -/
  status : Status
  /-- RES (R33) -/
  res : Word
  /-- DEC_PEND bit 0, PEND_VALID (R34) -/
  pendValid : Bool
  /-- DEC_PEND bits 4:1, PEND_NIB (R34) -/
  pendNib : Nibble
  /-- LINE_BYTES (R35) -/
  lineBytes : Word
  /-- LAST_NL bit 0 (R36) -/
  lastNl : Bool
  /-- ERR_CHAR bits 7:0 (R37) -/
  errChar : Byte
  /-- ERR_OFFSET (R38) -/
  errOffset : Count
  /-- IN_COUNT (R39) -/
  inCount : Count
  /-- OUT_COUNT (R40) -/
  outCount : Count
  /-- OBUF, the last staged byte first (R43, log 8) -/
  obufRev : List Byte
  /-- PCHUNK, hardwired to P_CHUNK_MAX (R42, log 3) -/
  pchunk : Word
  /-- PWRAP, hardwired to P_WRAP_BYTES (R42, log 3) -/
  pwrap : Word
  /-- the command stream the host supplies, the next input first (R45, log 1) -/
  cmdIn : List HostInput
  /-- the data-in stream the host supplies, the next byte first (R45, log 1) -/
  dataIn : List Byte
  /-- how many bytes the sink will accept at each coming non-empty commit, the next first (D5, I12, log 2) -/
  sinkPlan : List Nat
  /-- SINK, the bytes the sink has accepted, the first first (R45) -/
  sink : List Byte
  /-- the responses given at the command port, the first first (R76, log 7) -/
  responses : List Response
deriving DecidableEq, Repr

/-- The one way the CORE has no step. -/
inductive Fault where
  /-- CHUNK raises it when fewer than L bytes are on the data-in port: the command has not executed, nothing has changed and no step is
  enabled until the bytes arrive or reset is asserted (R148, I20, log 5). Safe: the model stops where the hardware waits. -/
  | chunkDataAwaited
deriving DecidableEq, Repr

/-- Why the model gives a command no meaning. -/
inductive Refusal where
  /-- raised by no meaning; an arm of exec whose command had none would raise it. Safe: the model stops. -/
  | notModelled (mnemonic : String)
deriving DecidableEq, Repr

/-- The CORE right after reset (R47, R49, R143) with the default parameters (R10, R11), and its ports before the host has supplied
anything (log 15). -/
def State.reset : State where
  cfg := 0x00000002
  status := ⟨.idle, .none, false⟩
  res := 0
  pendValid := false
  pendNib := 0
  lineBytes := 0
  lastNl := false
  errChar := 0
  errOffset := 0
  inCount := 0
  outCount := 0
  obufRev := []
  pchunk := Config.chunkMaxDefault
  pwrap := Config.wrapBytesDefault
  cmdIn := []
  dataIn := []
  sinkPlan := []
  sink := []
  responses := []

end Sys2Proof.Machine
end

