-- ==== Sys2Proof/Machine/Operands.lean ====
section
/-! DEFINITION. Field accessors: the bits of CFG (R20), the nibbles of a byte (R15), the register index map of RDREG (R47), the field
values that are legal (R74). -/

namespace Sys2Proof.Machine

/-- The newline character, exactly the byte 0x0A (R16). -/
def newline : Byte := 0x0A

/-- b[7:4] (R15). -/
def highNibble (b : Byte) : Nibble := b.extractLsb' 4 4

/-- b[3:0] (R15). -/
def lowNibble (b : Byte) : Nibble := b.extractLsb' 0 4

/-- `(high << 4) | low` (R15). -/
def joinNibbles (high low : Nibble) : Byte := (high.setWidth 8 <<< 4) ||| low.setWidth 8

/-- CFG.CASE: true for lower case (R21). -/
def State.lower (s : State) : Bool := s.cfg.getLsbD 0

/-- CFG.WRAP (R22). -/
def State.wrap (s : State) : Bool := s.cfg.getLsbD 1

/-- CFG.STRICT (R23). -/
def State.strict (s : State) : Bool := s.cfg.getLsbD 2

/-- CFG.MIXED (R24). -/
def State.mixed (s : State) : Bool := s.cfg.getLsbD 3

/-- CFG.DIR: true for decoding (R25). -/
def State.decoding (s : State) : Bool := s.cfg.getLsbD 4

/-- CFG.TERM (R26). -/
def State.term (s : State) : Bool := s.cfg.getLsbD 5

/-- CFG.ASCOPE: true for chunk scope (R27). -/
def State.chunkScope (s : State) : Bool := s.cfg.getLsbD 6

/-- OBUF as the sequence of rule R43, the first staged byte first. -/
def State.obuf (s : State) : List Byte := s.obufRev.reverse

/-- A one-bit field as a 32-bit value. -/
def bit (b : Bool) : Word := if b then 1 else 0

/-- Bits 31:0 of a 64-bit register (R54). -/
def loHalf (c : Count) : Word := c.extractLsb' 0 32

/-- Bits 63:32 of a 64-bit register (R54). -/
def hiHalf (c : Count) : Word := c.extractLsb' 32 32

/-- R47, the index map: indices 15 to 255 name no register. -/
def regOfIndex (idx : Byte) : Option RegName :=
  match idx.toNat with
  | 0 => some .status
  | 1 => some .cfg
  | 2 => some .res
  | 3 => some .decPend
  | 4 => some .lineBytes
  | 5 => some .lastNl
  | 6 => some .errChar
  | 7 => some .errOffsetLo
  | 8 => some .errOffsetHi
  | 9 => some .inCountLo
  | 10 => some .inCountHi
  | 11 => some .outCountLo
  | 12 => some .outCountHi
  | 13 => some .pchunk
  | 14 => some .pwrap
  | _ => none

/-- R74: the field values of a command that are legal on this CORE. -/
def fieldsLegal (i : Instr) (s : State) : Bool :=
  match i with
  | .nop => true
  | .cfg _ => true
  | .lutN2c _ => true
  | .lutC2n _ => true
  | .chunk l => decide (l.toNat ≤ s.pchunk.toNat)
  | .abort => true
  | .ioerr _ => true
  | .rdreg idx => decide (idx.toNat ≤ 14)

end Sys2Proof.Machine
end

