-- ==== Sys2Proof/Machine/Flags.lean ====
section
/-! DEFINITION. The numeric codes of STATUS and of the response word (R29 to R32, R76, R77), and the value each register reads as
(R20, R29, R33 to R42, R47). -/

namespace Sys2Proof.Machine

/-- The code of STATUS.STATE (R30). -/
def SessionState.code : SessionState → Word
  | .idle => 0
  | .active => 1
  | .error => 2

/-- The code of STATUS.ERR (R31, R127). -/
def ErrKind.code : ErrKind → Word
  | .none => 0
  | .invalidDigit => 1
  | .invalidAlignment => 2
  | .ioFailure => 3

/-- STATUS as a 32-bit register: STATE in 1:0, ERR in 4:2, DONE in bit 5, the rest 0 (R29). -/
def Status.word (st : Status) : Word :=
  st.state.code ||| (st.err.code <<< 2) ||| (bit st.done <<< 5)

/-- The code of ACC (R77). -/
def Acc.code : Acc → Word
  | .accepted => 0
  | .rejIllegal => 1
  | .rejState => 2

/-- RSP: ACC in 1:0, STATUS[5:0] in 7:2, the rest 0 (R76). -/
def rspWord (acc : Acc) (st : Status) : Word := acc.code ||| (st.word <<< 2)

/-- DEC_PEND as a 32-bit register: PEND_VALID in bit 0, PEND_NIB in 4:1, the rest 0 (R34). -/
def decPendWord (valid : Bool) (nib : Nibble) : Word := bit valid ||| (nib.setWidth 32 <<< 1)

/-- The value RDREG reads from each register (R47). -/
def readReg (r : RegName) (s : State) : Word :=
  match r with
  | .status => s.status.word
  | .cfg => s.cfg
  | .res => s.res
  | .decPend => decPendWord s.pendValid s.pendNib
  | .lineBytes => s.lineBytes
  | .lastNl => bit s.lastNl
  | .errChar => s.errChar.setWidth 32
  | .errOffsetLo => loHalf s.errOffset
  | .errOffsetHi => hiHalf s.errOffset
  | .inCountLo => loHalf s.inCount
  | .inCountHi => hiHalf s.inCount
  | .outCountLo => loHalf s.outCount
  | .outCountHi => hiHalf s.outCount
  | .pchunk => s.pchunk
  | .pwrap => s.pwrap

/-- RES after a lookup that found the value `v`: RES_OK = 1, RES_VAL = v (R33). -/
def resFound (v : Byte) : Word := (1#1 ++ v).setWidth 32

/-- RES after a lookup that found no value (R33). -/
def resInvalid : Word := 0

end Sys2Proof.Machine
end

