-- ==== Sys2Proof/Machine/Ops.lean ====
section
/-! DEFINITION. The operations every command shares: responses and refusals (R76, R121), the permission table (R120), raising an error
(R132) and the return from it (R124), staging (R17), the session's opening (R110), reset (R143). -/

namespace Sys2Proof.Machine

/-- Give the one response of a command word, with the status as it is after the command (R76). -/
def respond (acc : Acc) (rdata : Word) (s : State) : State :=
  { s with responses := s.responses ++ [⟨rspWord acc s.status, rdata⟩] }

/-- The response of a command that executed (R77). -/
def accept (rdata : Word) (s : State) : State := respond .accepted rdata s

/-- `reject REJ_ILLEGAL`: RDATA = 0 and no state change (R121). -/
def rejectIllegal (s : State) : State := respond .rejIllegal 0 s

/-- `reject REJ_STATE`: RDATA = 0 and no state change (R121). -/
def rejectState (s : State) : State := respond .rejState 0 s

/-- The permission table (R120). -/
def permitted (i : Instr) (st : SessionState) : Bool :=
  match i, st with
  | .nop, _ => true
  | .cfg _, .idle => true
  | .cfg _, .active => false
  | .cfg _, .error => false
  | .lutN2c _, _ => true
  | .lutC2n _, _ => true
  | .chunk _, .idle => true
  | .chunk _, .active => true
  | .chunk _, .error => false
  | .abort, _ => true
  | .ioerr _, .idle => true
  | .ioerr _, .active => true
  | .ioerr _, .error => false
  | .rdreg _, _ => true

/-- The end of the decoding procedure R75: REJ_ILLEGAL for an illegal field value, then REJ_STATE for a command the state does not
permit, then the command's own effect `run`. -/
def afterChecks (i : Instr) (s : State) (run : State → Host.Outcome State Fault Refusal) : Host.Outcome State Fault Refusal :=
  if fieldsLegal i s then
    if permitted i s.status.state then run s else .next (rejectState s)
  else .next (rejectIllegal s)

/-- `raise E(off, ch)` (R132): latch the kind and the record, discard OBUF. The pipe registers, LAST_NL and the counters keep their
values; the command's end and its response belong to the command that raised. -/
def raiseError (kind : ErrKind) (off : Count) (ch : Byte) (s : State) : State :=
  { s with status := ⟨.error, kind, false⟩, errOffset := off, errChar := ch, obufRev := [] }

/-- The effect of ABORT, the return from an error (R124, R135): STATUS and every session register to the reset value; CFG, RES and SINK
are kept. -/
def abortSession (s : State) : State :=
  { s with
    status := ⟨.idle, .none, false⟩, pendValid := false, pendNib := 0, lineBytes := 0, lastNl := false,
    errChar := 0, errOffset := 0, inCount := 0, outCount := 0, obufRev := [] }

/-- `SESSION_OPEN()` (R110). -/
def sessionOpen (s : State) : State :=
  { s with
    lineBytes := 0, pendValid := false, pendNib := 0, lastNl := false, inCount := 0, outCount := 0,
    status := { s.status with done := false }, obufRev := [] }

/-- `Stage(b)` (R17): append to OBUF and record in LAST_NL whether it is a newline. -/
def stage (b : Byte) (s : State) : State :=
  { s with obufRev := b :: s.obufRev, lastNl := b == newline }

/-- The reset input (R143, R49): every register to its reset value. The parameters are fixed per instance, SINK is the host's, and the
host's streams and the responses already given are not the CORE's. -/
def applyReset (s : State) : State :=
  { abortSession s with cfg := 0x00000002, res := 0 }

/-- What one part of a CHUNK ends in: it goes on, or it has raised an error, which ends the command (R132). -/
inductive Run where
  | going (s : State)
  | raised (s : State)
deriving DecidableEq, Repr

/-- Go on with the next part unless an error has been raised. -/
def Run.andThen (r : Run) (next : State → Run) : Run :=
  match r with
  | .going s => next s
  | .raised s => .raised s

end Sys2Proof.Machine
end

