-- ==== Sys2Proof/Machine/Control.lean ====
section
/-! DEFINITION. The control commands NOP, CFG, ABORT, IOERR and RDREG (44_control.md). -/

namespace Sys2Proof.Machine

/-- NOP (R122). -/
def execNop (s : State) : Host.Outcome State Fault Refusal :=
  afterChecks .nop s fun s => .next (accept 0 s)

/-- CFG (R123): every field at once. -/
def execCfg (v : BitVec 7) (s : State) : Host.Outcome State Fault Refusal :=
  afterChecks (.cfg v) s fun s => .next (accept 0 { s with cfg := v.setWidth 32 })

/-- ABORT (R124). -/
def execAbort (s : State) : Host.Outcome State Fault Refusal :=
  afterChecks .abort s fun s => .next (accept 0 (abortSession s))

/-- The raise of IOERR (R125, R130 item 2). -/
def raiseIo (k : IoSide) (s : State) : State :=
  match k with
  | .read => raiseError .ioFailure s.inCount 0x00 s
  | .write => raiseError .ioFailure s.outCount 0x01 s

/-- IOERR (R125): RDATA = 0. -/
def execIoerr (k : IoSide) (s : State) : Host.Outcome State Fault Refusal :=
  afterChecks (.ioerr k) s fun s => .next (accept 0 (raiseIo k s))

/-- RDREG (R126). An index that names no register is refused (R74), here as in `fieldsLegal`. -/
def execRdreg (idx : Byte) (s : State) : Host.Outcome State Fault Refusal :=
  afterChecks (.rdreg idx) s fun s =>
    match regOfIndex idx with
    | some r => .next (accept (readReg r s) s)
    | none => .next (rejectIllegal s)

end Sys2Proof.Machine
end

