-- ==== Sys2Proof/Machine/Lut.lean ====
section
/-! DEFINITION. The hex_nibble_lut unit (40_lut.md): the functions N2C and C2N, and the commands LUT_N2C and LUT_C2N. -/

namespace Sys2Proof.Machine

/-- `N2C(case, n)` (R84); `lower` is case = 1. -/
def n2c (lower : Bool) (n : Nibble) : Byte :=
  if n.toNat ≤ 9 then 0x30 + n.setWidth 8
  else if lower then 0x61 + (n.setWidth 8 - 10)
  else 0x41 + (n.setWidth 8 - 10)

/-- `C2N(case, mixed, c)` (R85); none is INVALID. -/
def c2n (lower mixed : Bool) (c : Byte) : Option Nibble :=
  if 0x30 ≤ c.toNat ∧ c.toNat ≤ 0x39 then some ((c - 0x30).setWidth 4)
  else if 0x41 ≤ c.toNat ∧ c.toNat ≤ 0x46 ∧ (lower = false ∨ mixed = true) then some ((c - 0x41 + 10).setWidth 4)
  else if 0x61 ≤ c.toNat ∧ c.toNat ≤ 0x66 ∧ (lower = true ∨ mixed = true) then some ((c - 0x61 + 10).setWidth 4)
  else none

/-- `RES <- v; RDATA <- RES` (R88, R89). -/
def answerRes (v : Word) (s : State) : State := accept v { s with res := v }

/-- RES after LUT_C2N of `ch` (R89). -/
def c2nResult (s : State) (ch : Byte) : Word :=
  match c2n s.lower s.mixed ch with
  | some v => resFound (v.setWidth 8)
  | none => resInvalid

/-- LUT_N2C (R88). -/
def execLutN2c (n : Nibble) (s : State) : Host.Outcome State Fault Refusal :=
  afterChecks (.lutN2c n) s fun s => .next (answerRes (resFound (n2c s.lower n)) s)

/-- LUT_C2N (R89): an invalid character is a result, not a latched error. -/
def execLutC2n (ch : Byte) (s : State) : Host.Outcome State Fault Refusal :=
  afterChecks (.lutC2n ch) s fun s => .next (answerRes (c2nResult s ch) s)

end Sys2Proof.Machine
end

