-- ==== Sys2Proof/Machine/Decoder.lean ====
section
/-! DEFINITION. The hex_decoder_pipe unit (42_decoder_pipe.md): DEC_STEP and ALIGN_CHECK. -/

namespace Sys2Proof.Machine

/-- DEC_STEP's last part (R99): a digit is the high nibble of a pair, or the low nibble that completes the byte. -/
def takeDigit (v : Nibble) (s : State) : State :=
  if s.pendValid then { stage (joinNibbles s.pendNib v) s with pendValid := false, pendNib := 0 }
  else { s with pendNib := v, pendValid := true }

/-- `DEC_STEP(c, off)` (R99): a newline is skipped in tolerant mode (R100) and is an ordinary non-digit in strict mode (R101). -/
def decStep (c : Byte) (off : Count) (s : State) : Run :=
  if c = newline ∧ s.strict = false then .going s
  else
    match c2n s.lower s.mixed c with
    | none => .raised (raiseError .invalidDigit off c s)
    | some v => .going (takeDigit v s)

/-- `ALIGN_CHECK()` (R103). -/
def alignCheck (s : State) : Run :=
  if s.pendValid then .raised (raiseError .invalidAlignment s.inCount 0x00 s) else .going s

end Sys2Proof.Machine
end

