-- ==== Sys2Proof/Machine/Encoder.lean ====
section
/-! DEFINITION. The hex_encoder_pipe unit (41_encoder_pipe.md): ENC_STEP and ENC_EOS. -/

namespace Sys2Proof.Machine

/-- The wrap newline of ENC_STEP, staged lazily: only before a byte that would not fit on the line (R91, R92). -/
def wrapLine (s : State) : State :=
  if s.wrap && s.lineBytes == s.pwrap then { stage newline s with lineBytes := 0 } else s

/-- Count a byte encoded on the current line; LINE_BYTES does not move with WRAP = 0 (R91). -/
def countLine (s : State) : State :=
  if s.wrap then { s with lineBytes := s.lineBytes + 1 } else s

/-- `ENC_STEP(b)` (R91): the high nibble's character first (R55). -/
def encStep (b : Byte) (s : State) : State :=
  countLine (stage (n2c s.lower (lowNibble b)) (stage (n2c s.lower (highNibble b)) (wrapLine s)))

/-- `ENC_EOS()` (R95): one newline, whatever WRAP is. -/
def encEos (s : State) : State := stage newline s

end Sys2Proof.Machine
end

