-- ==== Sys2Proof/Machine/Frame.lean ====
section
/-! DEFINITION. The streaming_frame_adapter unit and the CHUNK command (43_frame_adapter.md). -/

namespace Sys2Proof.Machine

/-- One input byte through the pipe CFG.DIR selects (R25, R109); its stream offset is IN_COUNT (R41). -/
def pipeStep (c : Byte) (s : State) : Run :=
  if s.decoding then decStep c s.inCount s else .going (encStep c s)

/-- `IN_COUNT <- IN_COUNT + 1` modulo 2^64, for a byte processed without an error (R111). -/
def countIn (s : State) : State := { s with inCount := s.inCount + 1 }

/-- The processing loop (R111): the bytes in order, stopping at the first error. -/
def feed : List Byte → State → Run
  | [], s => .going s
  | c :: cs, s =>
    match pipeStep c s with
    | .going t => feed cs (countIn t)
    | .raised t => .raised t

/-- The check at a chunk's end, in direction 1 and chunk scope only (R112). -/
def chunkEndCheck (s : State) : Run :=
  if s.decoding && s.chunkScope then alignCheck s else .going s

/-- `TERM_NEWLINE()` (R115). -/
def termNewline (s : State) : State :=
  if s.term && !s.lastNl then stage newline s else s

/-- `FINALIZE_STAGE()` (R114). -/
def finalizeStage (s : State) : Run :=
  if s.decoding then (alignCheck s).andThen fun t => .going (termNewline t)
  else .going (encEos s)

/-- End of stream: L < P_CHUNK_MAX (R113). -/
def endsStream (l : BitVec 24) (s : State) : Bool := decide (l.toNat < s.pchunk.toNat)

/-- A CHUNK accepted in IDLE first opens a session (R110). -/
def openIfIdle (s : State) : State := if s.status.state = .idle then sessionOpen s else s

/-- `InRead()` L times (R17, R109): the chunk's bytes leave the data-in port, and with them those an error would drain (R111). -/
def takeData (n : Nat) (s : State) : State := { s with dataIn := s.dataIn.drop n }

/-- Everything of a CHUNK before its commit (R109): open, feed, check, finalise. -/
def stageChunk (l : BitVec 24) (s : State) : Run :=
  ((feed (s.dataIn.take l.toNat) (openIfIdle (takeData l.toNat s))).andThen chunkEndCheck).andThen fun t =>
    if endsStream l t then finalizeStage t else .going t

/-- The count k the sink accepts of the n bytes of OBUF (R116, D5): 0 to n, what its next plan entry allows; everything where the host has
annotated nothing (R81, log 2). -/
def acceptedCount (s : State) : Nat :=
  match s.sinkPlan with
  | [] => s.obufRev.length
  | k :: _ => min k s.obufRev.length

/-- The transfer of COMMIT(k), k = `acceptedCount`: the accepted bytes reach SINK and OBUF is emptied (R116). -/
def transfer (s : State) : State :=
  { s with
    sink := s.sink ++ s.obuf.take (acceptedCount s)
    outCount := s.outCount + BitVec.ofNat 64 (acceptedCount s)
    obufRev := []
    sinkPlan := s.sinkPlan.tail }

/-- `COMMIT(k)` (R116): nothing offered cannot fail, and a short write raises IOFailure with OUT_COUNT after the accepted bytes (R130). -/
def commit (s : State) : Run :=
  if s.obufRev = [] then .going s
  else if acceptedCount s < s.obufRev.length then .raised (raiseError .ioFailure (transfer s).outCount 0x01 (transfer s))
  else .going (transfer s)

/-- The status after a CHUNK that raised nothing (R109, R114, R117). -/
def endChunk (eos : Bool) (s : State) : State :=
  if eos then { s with status := { s.status with state := .idle, done := true } }
  else { s with status := { s.status with state := .active } }

/-- The commit and the end of a CHUNK: RDATA is the number of bytes the sink accepted, modulo 2^32 (R76, R109, R132). -/
def commitChunk (eos : Bool) (s : State) : State :=
  match commit s with
  | .raised t => accept (BitVec.ofNat 32 (acceptedCount s)) t
  | .going t => accept (BitVec.ofNat 32 (acceptedCount s)) (endChunk eos t)

/-- A CHUNK all of whose data bytes have arrived (R109). -/
def runChunk (l : BitVec 24) (s : State) : State :=
  match stageChunk l s with
  | .raised t => accept 0 t
  | .going t => commitChunk (endsStream l t) t

/-- R148: an accepted CHUNK whose L data bytes are not all there has not executed. -/
def dataShort (l : BitVec 24) (s : State) : Bool := decide (s.dataIn.length < l.toNat)

/-- CHUNK (R109). -/
def execChunk (l : BitVec 24) (s : State) : Host.Outcome State Fault Refusal :=
  afterChecks (.chunk l) s fun s => if dataShort l s then .fault .chunkDataAwaited else .next (runChunk l s)

end Sys2Proof.Machine
end

