-- ==== Sys2Proof/Machine/Dispatch.lean ====
section
/-! DEFINITION. Every command to its meaning, one arm per row of the opcode table. -/

namespace Sys2Proof.Machine

def exec (i : Instr) (s : State) : Host.Outcome State Fault Refusal :=
  match i with
  | .nop => Sys2Proof.Machine.execNop s
  | .cfg v => Sys2Proof.Machine.execCfg v s
  | .lutN2c n => Sys2Proof.Machine.execLutN2c n s
  | .lutC2n ch => Sys2Proof.Machine.execLutC2n ch s
  | .chunk l => Sys2Proof.Machine.execChunk l s
  | .abort => Sys2Proof.Machine.execAbort s
  | .ioerr k => Sys2Proof.Machine.execIoerr k s
  | .rdreg idx => Sys2Proof.Machine.execRdreg idx s

end Sys2Proof.Machine
end

