-- ==== Sys2Proof/Machine/Ports.lean ====
section
/-! DEFINITION. What a step takes from the command port, and a reset that cuts a CHUNK short (R143, R148, R149). -/

namespace Sys2Proof.Machine

/-- The front of the command stream has been taken. -/
def dropInput (s : State) : State := { s with cmdIn := s.cmdIn.tail }

/-- A CHUNK that has been accepted and waits for data bytes (R148). -/
def awaitsData (i : Instr) (s : State) : Bool :=
  match i with
  | .chunk l => fieldsLegal i s && permitted i s.status.state && dataShort l s
  | .nop => false
  | .cfg _ => false
  | .lutN2c _ => false
  | .lutC2n _ => false
  | .abort => false
  | .ioerr _ => false
  | .rdreg _ => false

/-- The reset input ends the CHUNK that waits (R143): no response, nothing committed. The bytes it had taken are gone; they are all the
bytes on the port, fewer than L (log 6). -/
def cutByReset (s : State) : State := applyReset { s with cmdIn := s.cmdIn.tail, dataIn := [] }

/-- The state after a reset that cuts the command `i`, if `i` waits for data and reset is the host's next input; only reset leaves that
condition (R148). -/
def resetCuts (i : Instr) (s : State) : Option State :=
  if awaitsData i s && s.cmdIn.head? == some .reset then some (cutByReset s) else none

/-- With no input on the command port the CORE waits and keeps all state (R142, R144, log 4). -/
def waitForCommand (s : State) : State := s

/-- A command word: refused when it is no command (R72, R73), else executed (R75), unless a reset cuts it short (R143). -/
def runWord (w : Word) (s : State) : Host.Outcome State Fault Refusal :=
  match decode w with
  | .error _ => .next (rejectIllegal s)
  | .ok i =>
    match resetCuts i s with
    | some t => .next t
    | none => exec i s

/-- The data bytes that follow a command word: a legal CHUNK's L bytes, here all 0; none for any other word (R69, R78, log 11). -/
def trailerOf (w : Word) (s : State) : List Byte :=
  match decode w with
  | .ok (.chunk l) => if fieldsLegal (.chunk l) s then List.replicate l.toNat 0 else []
  | _ => []

/-- A command word put at the front of the command stream, with the data bytes that follow it at the front of the data-in stream. -/
def placeCommand (w : Word) (s : State) : State :=
  { s with cmdIn := .word w :: s.cmdIn, dataIn := trailerOf w s ++ s.dataIn }

end Sys2Proof.Machine
end

