-- ==== Sys2Proof/Machine/Step.lean ====
section
/-! DEFINITION. One step: the next input of the command port, to its end (R9, R61). -/

namespace Sys2Proof.Machine

/-- One step of the CORE. -/
def step (s : State) : Host.Outcome State Fault Refusal :=
  match s.cmdIn with
  | [] => .next (waitForCommand s)
  | .reset :: _ => .next (applyReset (dropInput s))
  | .word w :: _ => runWord w (dropInput s)

/-- The opcode table's word `w` put where `step` takes its next command, with the zero data bytes a CHUNK's word calls for (log 11). -/
def State.withFetchWord (s : State) (nbits w : Nat) : State := placeCommand (tableWord nbits w) s

end Sys2Proof.Machine
end

