-- ==== Sys2Proof/Safety.lean ====
section
/-! DEFINITION. The terms statements are made in: the invariants of rule R48, the codec as pure functions of byte sequences (R80, R93,
R98, R106, R107), the host's read loop STREAM (R82). The machine does not use this file. -/

namespace Sys2Proof.Safety

open Sys2Proof.Machine

/-- The invariants of rule R48, with the parameter ranges (R10, R11) and the reserved bits of CFG (R28) and RES (R33). -/
structure Invariants (s : State) : Prop where
  chunkMax : Config.chunkMaxInRange s.pchunk
  wrapBytes : Config.wrapBytesInRange s.pwrap
  /-- R48 item 1 -/
  errIffError : s.status.err ≠ .none ↔ s.status.state = .error
  /-- R48 item 2 -/
  doneIdle : s.status.done = true → s.status.state = .idle
  /-- R48 item 3 -/
  obufEmpty : s.obuf = []
  /-- R48 item 4 -/
  pendClear : s.pendValid = false → s.pendNib = 0
  /-- R48 item 5 -/
  lineBound : s.lineBytes.toNat ≤ s.pwrap.toNat
  /-- R48 item 6 -/
  activeCount : s.status.state = .active → ∃ q : Nat, 0 < q ∧ s.inCount = BitVec.ofNat 64 (q * s.pchunk.toNat)
  /-- R48 item 7 -/
  fresh : s.status.state = .idle → s.status.done = false →
    s.pendValid = false ∧ s.pendNib = 0 ∧ s.lineBytes = 0 ∧ s.lastNl = false ∧ s.errChar = 0 ∧ s.errOffset = 0 ∧
      s.inCount = 0 ∧ s.outCount = 0
  /-- R48 item 8 -/
  noRecord : s.status.state ≠ .error → s.errChar = 0 ∧ s.errOffset = 0
  /-- R28 -/
  cfgReserved : s.cfg.extractLsb' 7 25 = 0
  /-- R33 -/
  resReserved : s.res.extractLsb' 9 23 = 0

/-- OBUF_CAP (R12): 2 * P_CHUNK_MAX + ceil(P_CHUNK_MAX / P_WRAP_BYTES) + 1. -/
def obufCap (s : State) : Nat := 2 * s.pchunk.toNat + (s.pchunk.toNat + s.pwrap.toNat - 1) / s.pwrap.toNat + 1

/-- What is left of the command stream after its front. -/
def popped (s : State) (rest : List HostInput) : State := { s with cmdIn := rest }

/-- The state `s` with one more response: RSP made of `acc` and `s`'s status, and RDATA (R76). -/
def answered (acc : Acc) (rdata : Word) (s : State) : State :=
  { s with responses := s.responses ++ [⟨rspWord acc s.status, rdata⟩] }

/-- How many of `n` offered bytes the sink accepts (D5, log 2). -/
def planned (s : State) (n : Nat) : Nat :=
  match s.sinkPlan with
  | [] => n
  | k :: _ => min k n

/-- What a commit leaves of the plan: a commit of nothing offers nothing (R116). -/
def planAfter (s : State) (n : Nat) : List Nat := if n = 0 then s.sinkPlan else s.sinkPlan.tail

/-- The session a CHUNK works in: a new one when it is accepted in IDLE (R110), else the open one. -/
def sessionOf (s : State) : State :=
  if s.status.state = .idle then
    { s with
      pendValid := false, pendNib := 0, lineBytes := 0, lastNl := false, inCount := 0, outCount := 0,
      status := { s.status with done := false } }
  else s

/-- The two digits D(b) of a byte (R80), the high nibble's first (R55). -/
def hexPair (lower : Bool) (b : Byte) : List Byte := [n2c lower (highNibble b), n2c lower (lowNibble b)]

/-- The encoding of bytes whose first has stream offset `off`: with wrapping on, a newline stands before the byte of every positive
offset that is a multiple of the line length (R93). -/
def encodeFrom (wrap lower : Bool) (w : Nat) : Nat → List Byte → List Byte
  | _, [] => []
  | off, b :: bs =>
    (if wrap = true ∧ 0 < off ∧ off % w = 0 then [newline] else []) ++ hexPair lower b ++ encodeFrom wrap lower w (off + 1) bs

/-- `encode_cfg` (R98). -/
def encodeText (wrap lower : Bool) (w : Nat) (bs : List Byte) : List Byte := encodeFrom wrap lower w 0 bs

/-- How many bytes stand on the current line after `m` bytes of a wrapped session: 0 before the first byte, else 1 to `w` (R35, R91). -/
def lineFill (w m : Nat) : Nat := if m = 0 then 0 else (m - 1) % w + 1

/-- The two registers of DEC_PEND as one value (R34). -/
def pendOf (s : State) : Option Nibble := if s.pendValid then some s.pendNib else none

/-- DEC_STEP over a character sequence (R99) from a pending nibble: the bytes completed and the nibble left pending, or the index of the
first character that is neither a digit nor a skipped newline, and that character (R102). -/
def decodeFrom (strict lower mixed : Bool) : Option Nibble → Nat → List Byte → Except (Nat × Byte) (List Byte × Option Nibble)
  | pend, _, [] => .ok ([], pend)
  | pend, at_, c :: cs =>
    if c = newline ∧ strict = false then decodeFrom strict lower mixed pend (at_ + 1) cs
    else
      match c2n lower mixed c with
      | none => .error (at_, c)
      | some v =>
        match pend with
        | none => decodeFrom strict lower mixed (some v) (at_ + 1) cs
        | some h =>
          match decodeFrom strict lower mixed none (at_ + 1) cs with
          | .error e => .error e
          | .ok (bs, q) => .ok (joinNibbles h v :: bs, q)

/-- How decoding a whole stream fails (R127). -/
inductive DecodeError where
  | digit (offset : Nat) (ch : Byte)
  | alignment (offset : Nat)
deriving DecidableEq, Repr

/-- `decode_cfg` (R106): the bytes of a whole stream, or its first error. -/
def decodeText (strict lower mixed : Bool) (h : List Byte) : Except DecodeError (List Byte) :=
  match decodeFrom strict lower mixed none 0 h with
  | .error (off, c) => .error (.digit off c)
  | .ok (_, some _) => .error (.alignment h.length)
  | .ok (bs, none) => .ok bs

/-- LAST_NL after staging `out` (R36). -/
def lastNlAfter (before : Bool) (out : List Byte) : Bool :=
  match out.getLast? with
  | none => before
  | some b => b == newline

/-- The terminal newline of a decoded stream (R115): `nl` says whether the output so far ends in a newline. -/
def terminalNewline (term nl : Bool) : List Byte := if term && !nl then [newline] else []

/-- A letter in the configured case (R87 item 3, R107 item 2). -/
def normalise (lower : Bool) (c : Byte) : Byte :=
  if lower = true ∧ 0x41 ≤ c.toNat ∧ c.toNat ≤ 0x46 then c + 0x20
  else if lower = false ∧ 0x61 ≤ c.toNat ∧ c.toNat ≤ 0x66 then c - 0x20
  else c

/-- The command words of STREAM for `n` bytes (R82): as many full chunks as fit, then one shorter, perhaps empty. -/
def streamWords (chunkMax n : Nat) : List HostInput :=
  List.replicate (n / chunkMax) (.word (encode (.chunk (BitVec.ofNat 24 chunkMax)))) ++
    [.word (encode (.chunk (BitVec.ofNat 24 (n % chunkMax))))]

/-- `n` steps in a row, to the first that has no next state. -/
def stepN : Nat → State → Host.Outcome State Fault Refusal
  | 0, s => .next s
  | n + 1, s =>
    match step s with
    | .next t => stepN n t
    | .fault f => .fault f
    | .refused r => .refused r

/-- How many commands STREAM sends for `n` bytes. -/
def streamLength (chunkMax n : Nat) : Nat := n / chunkMax + 1

/-- `s` with STREAM `data` on its ports, and a sink that will accept by `plan`. -/
def streaming (s : State) (data : List Byte) (plan : List Nat) : State :=
  { s with cmdIn := streamWords s.pchunk.toNat data.length, dataIn := data, sinkPlan := plan }

/-- Every commit will be accepted in full, whatever a CHUNK stages (R98, R106). -/
def AcceptsAll (s : State) (plan : List Nat) : Prop := ∀ k ∈ plan, obufCap s ≤ k

/-- The code of STATUS.STATE (R30). -/
def stateNumber : SessionState → Nat
  | .idle => 0
  | .active => 1
  | .error => 2

/-- The code of STATUS.ERR (R31). -/
def errNumber : ErrKind → Nat
  | .none => 0
  | .invalidDigit => 1
  | .invalidAlignment => 2
  | .ioFailure => 3

/-- The code of ACC (R77). -/
def accNumber : Acc → Nat
  | .accepted => 0
  | .rejIllegal => 1
  | .rejState => 2

/-- STATUS as a number, by the places of its fields (R29). -/
def statusNumber (st : Status) : Nat := stateNumber st.state + 4 * errNumber st.err + 32 * st.done.toNat

/-- The values of the registers in the order of their indices 0 to 14 (R47), by the places of their fields (R29, R33 to R42). -/
def registerNumbers (s : State) : List Nat :=
  [statusNumber s.status, s.cfg.toNat, s.res.toNat, s.pendValid.toNat + 2 * s.pendNib.toNat, s.lineBytes.toNat, s.lastNl.toNat,
    s.errChar.toNat, s.errOffset.toNat % 2 ^ 32, s.errOffset.toNat / 2 ^ 32, s.inCount.toNat % 2 ^ 32, s.inCount.toNat / 2 ^ 32,
    s.outCount.toNat % 2 ^ 32, s.outCount.toNat / 2 ^ 32, s.pchunk.toNat, s.pwrap.toNat]

/-- The same outcome with another value of CFG. -/
def withCfg (c : Word) (o : Host.Outcome State Fault Refusal) : Host.Outcome State Fault Refusal :=
  match o with
  | .next t => .next { t with cfg := c }
  | .fault f => .fault f
  | .refused r => .refused r

end Sys2Proof.Safety
end

