-- ==== Sys2Proof/Certificates/Slice0/Obligations.lean ====
section
/-! DEFINITION. The statements for the provers. Each docstring names the rule it formalises. An equality
`exec i s = .next …` says the command completes, what it writes and its frame: every field its record does not name is unchanged,
and the responses gain exactly one (`Safety.answered`). -/

open Sys2Proof Sys2Proof.Machine Sys2Proof.Safety

/-! ### Encoding -/

/-- R68, R71: decoding the word of a command gives the command, every operand at every value. -/
def Obligations.DecodeOfEncode : Prop := ∀ i : Instr, decode (encode i) = .ok i

/-- R68, R71, R72: a word that decodes is the word of its command, so no bit of it is ignored. -/
def Obligations.EncodeOfDecode : Prop := ∀ (w : Word) (i : Instr), decode w = .ok i → encode i = w

/-- R71: what eight words of 95_test_vectors.md decode to. -/
def Obligations.DecodesSpecWords : Prop :=
  decode 0x00000000 = .ok .nop ∧ decode 0x10000003 = .ok (.cfg 3) ∧ decode 0x2000000A = .ok (.lutN2c 10) ∧
    decode 0x30000061 = .ok (.lutC2n 0x61) ∧ decode 0x40000021 = .ok (.chunk 33) ∧ decode 0x50000000 = .ok .abort ∧
    decode 0x60000001 = .ok (.ioerr .write) ∧ decode 0x7000000B = .ok (.rdreg 11)

/-- R71: a word selects a row of the opcode map exactly when it equals the row's match under the row's mask; a word that selects no row
is no command. -/
def Obligations.DecodeFollowsOpcodeMap : Prop :=
  ∀ w : Word,
    (decode w = .ok .nop ↔ w &&& 0xFFFFFFFF = 0x00000000) ∧ ((∃ v, decode w = .ok (.cfg v)) ↔ w &&& 0xFFFFFF80 = 0x10000000) ∧
      ((∃ n, decode w = .ok (.lutN2c n)) ↔ w &&& 0xFFFFFFF0 = 0x20000000) ∧
      ((∃ ch, decode w = .ok (.lutC2n ch)) ↔ w &&& 0xFFFFFF00 = 0x30000000) ∧
      ((∃ l, decode w = .ok (.chunk l)) ↔ w &&& 0xFF000000 = 0x40000000) ∧
      (decode w = .ok .abort ↔ w &&& 0xFFFFFFFF = 0x50000000) ∧
      ((∃ k, decode w = .ok (.ioerr k)) ↔ w &&& 0xFFFFFFFE = 0x60000000) ∧
      ((∃ idx, decode w = .ok (.rdreg idx)) ↔ w &&& 0xFFFFFF00 = 0x70000000)

/-- R68, R70: every operand is the unsigned field of the word that the format gives it, taken as it stands. -/
def Obligations.OperandsReadFromWord : Prop :=
  ∀ w : Word,
    (∀ v, decode w = .ok (.cfg v) → v.toNat = w.toNat % 2 ^ 7) ∧ (∀ n, decode w = .ok (.lutN2c n) → n.toNat = w.toNat % 2 ^ 4) ∧
      (∀ ch, decode w = .ok (.lutC2n ch) → ch.toNat = w.toNat % 2 ^ 8) ∧
      (∀ l, decode w = .ok (.chunk l) → l.toNat = w.toNat % 2 ^ 24) ∧
      (∀ k, decode w = .ok (.ioerr k) → (k = .write ↔ w.toNat % 2 = 1)) ∧
      ∀ idx, decode w = .ok (.rdreg idx) → idx.toNat = w.toNat % 2 ^ 8

/-- R72, R73: a word with a reserved opcode, or with a reserved bit set (the value of every format's reserved bits, R68, written out), is
answered REJ_ILLEGAL in every state, with RDATA = 0, no state change and no data consumed. -/
def Obligations.IllegalWordRefused : Prop :=
  ∀ (s : State) (w : Word) (rest : List HostInput), s.cmdIn = .word w :: rest →
    (8 ≤ w.toNat / 2 ^ 28 ∨
      (w.toNat / 2 ^ 28 = 0 ∧ w.toNat % 2 ^ 28 ≠ 0) ∨ (w.toNat / 2 ^ 28 = 1 ∧ 2 ^ 7 ≤ w.toNat % 2 ^ 28) ∨
      (w.toNat / 2 ^ 28 = 2 ∧ 2 ^ 4 ≤ w.toNat % 2 ^ 28) ∨ (w.toNat / 2 ^ 28 = 3 ∧ 2 ^ 8 ≤ w.toNat % 2 ^ 28) ∨
      (w.toNat / 2 ^ 28 = 4 ∧ 2 ^ 24 ≤ w.toNat % 2 ^ 28) ∨ (w.toNat / 2 ^ 28 = 5 ∧ w.toNat % 2 ^ 28 ≠ 0) ∨
      (w.toNat / 2 ^ 28 = 6 ∧ 2 ^ 1 ≤ w.toNat % 2 ^ 28) ∨ (w.toNat / 2 ^ 28 = 7 ∧ 2 ^ 8 ≤ w.toNat % 2 ^ 28)) →
    step s = .next (answered .rejIllegal 0 (popped s rest))

/-! ### Steps -/

/-- A step takes the command word at the front of the command stream and runs the command it decodes to, unless the command is an accepted
CHUNK short of data and reset is the host's next input (the cut of `ResetCutsWaitingChunk`). -/
def Obligations.StepRunsDecodedCommand : Prop :=
  ∀ (s : State) (w : Word) (rest : List HostInput) (i : Instr), s.cmdIn = .word w :: rest → decode w = .ok i →
    (rest.head? ≠ some .reset ∨
      ∀ l, i = .chunk l → s.pchunk.toNat < l.toNat ∨ s.status.state = .error ∨ l.toNat ≤ s.dataIn.length) →
    step s = exec i (popped s rest)

/-- R142, R144: with nothing on the command port the CORE keeps all state. That waiting is a step is the model's choice (log 4). -/
def Obligations.WaitingKeepsState : Prop := ∀ s : State, s.cmdIn = [] → step s = .next s

/-- R49: what reset leaves, from any state. PCHUNK, PWRAP, SINK and the host's streams are as they were. -/
def Obligations.ResetRestoresRegisters : Prop :=
  ∀ s : State,
    applyReset s =
      { cfg := 0x00000002, status := ⟨.idle, .none, false⟩, res := 0, pendValid := false, pendNib := 0, lineBytes := 0,
        lastNl := false, errChar := 0, errOffset := 0, inCount := 0, outCount := 0, obufRev := [], pchunk := s.pchunk,
        pwrap := s.pwrap, cmdIn := s.cmdIn, dataIn := s.dataIn, sinkPlan := s.sinkPlan, sink := s.sink, responses := s.responses }

/-- R143: reset acts between commands. That the reset input stands in the command stream is the model's choice (log 6). -/
def Obligations.StepTakesReset : Prop :=
  ∀ (s : State) (rest : List HostInput), s.cmdIn = .reset :: rest → step s = .next (applyReset (popped s rest))

/-- R143, R148: reset ends a CHUNK that waits for data, without a response and without a commit; the bytes it had taken are gone (that
these are all the bytes on the port is the model's choice, log 6). -/
def Obligations.ResetCutsWaitingChunk : Prop :=
  ∀ (s : State) (l : BitVec 24) (rest : List HostInput), s.cmdIn = .word (encode (.chunk l)) :: .reset :: rest →
    l.toNat ≤ s.pchunk.toNat → s.status.state ≠ .error → s.dataIn.length < l.toNat →
    step s = .next
      { cfg := 0x00000002, status := ⟨.idle, .none, false⟩, res := 0, pendValid := false, pendNib := 0, lineBytes := 0,
        lastNl := false, errChar := 0, errOffset := 0, inCount := 0, outCount := 0, obufRev := [], pchunk := s.pchunk,
        pwrap := s.pwrap, cmdIn := rest, dataIn := [], sinkPlan := s.sinkPlan, sink := s.sink, responses := s.responses }

/-- R148: a CHUNK that would be accepted and whose L data bytes are not all there has no step; with the bytes there, or where it is
refused, it has one. -/
def Obligations.ChunkStuckExactlyWithoutData : Prop :=
  ∀ (l : BitVec 24) (s : State),
    exec (.chunk l) s = .fault .chunkDataAwaited ↔
      l.toNat ≤ s.pchunk.toNat ∧ s.status.state ≠ .error ∧ s.dataIn.length < l.toNat

/-- R76: a step that takes a command word, and is not the cut of a waiting CHUNK, gives exactly one response, whose RSP holds an ACC code
and the status after the command; every earlier response stays. -/
def Obligations.OneResponsePerWord : Prop :=
  ∀ (s t : State) (w : Word) (rest : List HostInput), s.cmdIn = .word w :: rest →
    (rest.head? ≠ some .reset ∨
      ∀ l, decode w = .ok (.chunk l) → s.pchunk.toNat < l.toNat ∨ s.status.state = .error ∨ l.toNat ≤ s.dataIn.length) →
    step s = .next t → ∃ acc rdata, t.responses = s.responses ++ [⟨rspWord acc t.status, rdata⟩]

/-- R76, R77, R29: the places of ACC, STATE, ERR and DONE in RSP, and of the last three in STATUS; every other bit is 0. -/
def Obligations.ResponseWordLayout : Prop :=
  ∀ (acc : Acc) (st : Status),
    (rspWord acc st).toNat = accNumber acc + 4 * statusNumber st ∧ st.word.toNat = statusNumber st ∧ statusNumber st < 2 ^ 6

/-! ### Refusals and permissions -/

/-- R74: CHUNK with L > P_CHUNK_MAX and RDREG with IDX > 14 are refused with REJ_ILLEGAL and no state change, in every state, ERROR too;
no other field value is. -/
def Obligations.IllegalFieldRefused : Prop :=
  (∀ (l : BitVec 24) (s : State), s.pchunk.toNat < l.toNat → exec (.chunk l) s = .next (answered .rejIllegal 0 s)) ∧
    (∀ (idx : Byte) (s : State), 14 < idx.toNat → exec (.rdreg idx) s = .next (answered .rejIllegal 0 s)) ∧
    ∀ (i : Instr) (s t : State), (∀ l, i = .chunk l → l.toNat ≤ s.pchunk.toNat) → (∀ idx, i = .rdreg idx → idx.toNat ≤ 14) →
      exec i s = .next t → t ≠ answered .rejIllegal 0 s

/-- R120: the permission table. CFG outside IDLE, and CHUNK and IOERR in ERROR, are refused with REJ_STATE and no state change; every
other legal command, when it answers, answers ACCEPTED. -/
def Obligations.PermissionTable : Prop :=
  (∀ (v : BitVec 7) (s : State), s.status.state ≠ .idle → exec (.cfg v) s = .next (answered .rejState 0 s)) ∧
    (∀ (l : BitVec 24) (s : State), s.status.state = .error → l.toNat ≤ s.pchunk.toNat →
      exec (.chunk l) s = .next (answered .rejState 0 s)) ∧
    (∀ (k : IoSide) (s : State), s.status.state = .error → exec (.ioerr k) s = .next (answered .rejState 0 s)) ∧
    ∀ (i : Instr) (s t : State), i.wellFormed s.pchunk = true → (∀ v, i = .cfg v → s.status.state = .idle) →
      (∀ l, i = .chunk l → s.status.state ≠ .error) → (∀ k, i = .ioerr k → s.status.state ≠ .error) → exec i s = .next t →
      ∃ rdata, t.responses = s.responses ++ [⟨rspWord .accepted t.status, rdata⟩]

/-! ### Control commands -/

/-- R122: NOP answers with RDATA = 0 and does nothing else, in every state. -/
def Obligations.NopOnlyAnswers : Prop := ∀ s : State, exec .nop s = .next (answered .accepted 0 s)

/-- R123: CFG in IDLE writes V, zero-extended, and nothing else; DONE and the counters are kept. -/
def Obligations.CfgWritesConfiguration : Prop :=
  ∀ (v : BitVec 7) (s : State), s.status.state = .idle →
    exec (.cfg v) s = .next (answered .accepted 0 { s with cfg := BitVec.ofNat 32 v.toNat })

/-- R124: ABORT, the word 0x50000000 exactly, in every state puts STATUS and the session registers to 0 and OBUF to empty, and keeps CFG,
RES and SINK. -/
def Obligations.AbortReturnsToIdle : Prop :=
  (∀ w : Word, decode w = .ok .abort ↔ w = 0x50000000) ∧
    ∀ s : State,
      exec .abort s = .next (answered .accepted 0
        { s with
          status := ⟨.idle, .none, false⟩, pendValid := false, pendNib := 0, lineBytes := 0, lastNl := false, errChar := 0,
          errOffset := 0, inCount := 0, outCount := 0, obufRev := [] })

/-- R125: IOERR, the words 0x60000000 (read) and 0x60000001 (write), in IDLE or ACTIVE latches IOFailure with its record and keeps the
pipe registers, LAST_NL and the counters; in ERROR it is refused. -/
def Obligations.IoerrLatchesIoFailure : Prop :=
  (∀ w : Word, (decode w = .ok (.ioerr .read) ↔ w = 0x60000000) ∧ (decode w = .ok (.ioerr .write) ↔ w = 0x60000001)) ∧
    (∀ s : State, s.status.state ≠ .error →
      exec (.ioerr .read) s = .next (answered .accepted 0
        { s with status := ⟨.error, .ioFailure, false⟩, errOffset := s.inCount, errChar := 0x00, obufRev := [] }) ∧
      exec (.ioerr .write) s = .next (answered .accepted 0
        { s with status := ⟨.error, .ioFailure, false⟩, errOffset := s.outCount, errChar := 0x01, obufRev := [] })) ∧
    ∀ (k : IoSide) (s : State), s.status.state = .error → exec (.ioerr k) s = .next (answered .rejState 0 s)

/-- R126, R47: RDREG of an index 0 to 14 returns that register's value and changes nothing else. -/
def Obligations.RdregReadsRegister : Prop :=
  ∀ (idx : Byte) (s : State) (v : Nat), (registerNumbers s)[idx.toNat]? = some v →
    exec (.rdreg idx) s = .next (answered .accepted (BitVec.ofNat 32 v) s) ∧ v < 2 ^ 32

/-! ### The table -/

/-- R88, R84: LUT_N2C in every state. -/
def Obligations.LutN2cResult : Prop :=
  ∀ (n : Nibble) (s : State),
    let ch := if n.toNat ≤ 9 then 0x30 + n.toNat else if s.cfg.getLsbD 0 = true then 0x61 + (n.toNat - 10) else 0x41 + (n.toNat - 10)
    let r : Word := BitVec.ofNat 32 (0x100 + ch)
    exec (.lutN2c n) s = .next (answered .accepted r { s with res := r })

/-- R89, R85: LUT_C2N in every state; an invalid character gives RES = 0 and latches nothing. -/
def Obligations.LutC2nResult : Prop :=
  ∀ (ch : Byte) (s : State),
    let c := ch.toNat
    let r : Word :=
      if 0x30 ≤ c ∧ c ≤ 0x39 then BitVec.ofNat 32 (0x100 + (c - 0x30))
      else if 0x41 ≤ c ∧ c ≤ 0x46 ∧ (s.cfg.getLsbD 0 = false ∨ s.cfg.getLsbD 3 = true) then BitVec.ofNat 32 (0x100 + (c - 0x41 + 10))
      else if 0x61 ≤ c ∧ c ≤ 0x66 ∧ (s.cfg.getLsbD 0 = true ∨ s.cfg.getLsbD 3 = true) then BitVec.ofNat 32 (0x100 + (c - 0x61 + 10))
      else 0
    exec (.lutC2n ch) s = .next (answered .accepted r { s with res := r })

/-- R87: round trip, single case, normalisation, and the image of N2C. -/
def Obligations.TableLaws : Prop :=
  (∀ (lower mixed : Bool) (n : Nibble), c2n lower mixed (n2c lower n) = some n) ∧
    (∀ (lower : Bool) (c : Byte) (v : Nibble), c2n lower false c = some v → n2c lower v = c) ∧
    (∀ (lower : Bool) (c : Byte) (v : Nibble), c2n lower true c = some v → n2c lower v = normalise lower c) ∧
    (∀ (lower : Bool) (m n : Nibble), n2c lower m = n2c lower n → m = n) ∧
    ∀ (lower : Bool) (c : Byte), (∃ n, n2c lower n = c) ↔ (c2n lower false c).isSome = true

/-! ### CHUNK

A CHUNK is accepted when L is at most P_CHUNK_MAX, the state is IDLE or ACTIVE and its L bytes are on the port. -/

/-- R109, R91, R95, R114, R116: an accepted CHUNK in direction 0 whose commit the sink accepts in full: what it stages, where it leaves
every register, and its frame. -/
def Obligations.ChunkEncodeDelivers : Prop :=
  ∀ (l : BitVec 24) (s : State), Invariants s → s.status.state ≠ .error → s.decoding = false → l.toNat ≤ s.pchunk.toNat →
    l.toNat ≤ s.dataIn.length →
    let u := sessionOf s
    let short := decide (l.toNat < s.pchunk.toNat)
    let out := encodeFrom s.wrap s.lower s.pwrap.toNat u.lineBytes.toNat (s.dataIn.take l.toNat) ++ (if short then [newline] else [])
    planned s out.length = out.length →
    exec (.chunk l) s = .next (answered .accepted (BitVec.ofNat 32 out.length)
      { u with
        status := if short then ⟨.idle, .none, true⟩ else ⟨.active, .none, false⟩
        lineBytes := if s.wrap then BitVec.ofNat 32 (lineFill s.pwrap.toNat (u.lineBytes.toNat + l.toNat)) else u.lineBytes
        lastNl := short
        inCount := u.inCount + BitVec.ofNat 64 l.toNat
        outCount := u.outCount + BitVec.ofNat 64 out.length
        dataIn := s.dataIn.drop l.toNat
        sinkPlan := s.sinkPlan.tail
        sink := s.sink ++ out })

/-- R116, R130 item 1, R132: an accepted CHUNK in direction 0 whose commit is short: the k accepted bytes stay in SINK and IOFailure is
latched with OUT_COUNT after them. -/
def Obligations.ChunkEncodeShortWrite : Prop :=
  ∀ (l : BitVec 24) (s : State), Invariants s → s.status.state ≠ .error → s.decoding = false → l.toNat ≤ s.pchunk.toNat →
    l.toNat ≤ s.dataIn.length →
    let u := sessionOf s
    let short := decide (l.toNat < s.pchunk.toNat)
    let out := encodeFrom s.wrap s.lower s.pwrap.toNat u.lineBytes.toNat (s.dataIn.take l.toNat) ++ (if short then [newline] else [])
    let k := planned s out.length
    k < out.length →
    exec (.chunk l) s = .next (answered .accepted (BitVec.ofNat 32 k)
      { u with
        status := ⟨.error, .ioFailure, false⟩
        lineBytes := if s.wrap then BitVec.ofNat 32 (lineFill s.pwrap.toNat (u.lineBytes.toNat + l.toNat)) else u.lineBytes
        lastNl := short
        errChar := 0x01
        errOffset := u.outCount + BitVec.ofNat 64 k
        inCount := u.inCount + BitVec.ofNat 64 l.toNat
        outCount := u.outCount + BitVec.ofNat 64 k
        dataIn := s.dataIn.drop l.toNat
        sinkPlan := s.sinkPlan.tail
        sink := s.sink ++ out.take k })

/-- R109, R99, R112, R114, R115, R116: an accepted CHUNK in direction 1 that meets no error and whose commit, if there is anything to
commit, the sink accepts in full. -/
def Obligations.ChunkDecodeDelivers : Prop :=
  ∀ (l : BitVec 24) (s : State) (bs : List Byte) (q : Option Nibble), Invariants s → s.status.state ≠ .error → s.decoding = true →
    l.toNat ≤ s.pchunk.toNat → l.toNat ≤ s.dataIn.length →
    let u := sessionOf s
    let short := decide (l.toNat < s.pchunk.toNat)
    let out := bs ++ (if short then terminalNewline s.term (lastNlAfter u.lastNl bs) else [])
    decodeFrom s.strict s.lower s.mixed (pendOf u) 0 (s.dataIn.take l.toNat) = .ok (bs, q) →
    (short = true ∨ s.chunkScope = true → q = none) → planned s out.length = out.length →
    exec (.chunk l) s = .next (answered .accepted (BitVec.ofNat 32 out.length)
      { u with
        status := if short then ⟨.idle, .none, true⟩ else ⟨.active, .none, false⟩
        pendValid := q.isSome
        pendNib := q.getD 0
        lastNl := lastNlAfter u.lastNl out
        inCount := u.inCount + BitVec.ofNat 64 l.toNat
        outCount := u.outCount + BitVec.ofNat 64 out.length
        dataIn := s.dataIn.drop l.toNat
        sinkPlan := planAfter s out.length
        sink := s.sink ++ out })

/-- R116, R130 item 1, R132: an accepted CHUNK in direction 1 that meets no decoding error and whose commit is short. -/
def Obligations.ChunkDecodeShortWrite : Prop :=
  ∀ (l : BitVec 24) (s : State) (bs : List Byte) (q : Option Nibble), Invariants s → s.status.state ≠ .error → s.decoding = true →
    l.toNat ≤ s.pchunk.toNat → l.toNat ≤ s.dataIn.length →
    let u := sessionOf s
    let short := decide (l.toNat < s.pchunk.toNat)
    let out := bs ++ (if short then terminalNewline s.term (lastNlAfter u.lastNl bs) else [])
    let k := planned s out.length
    decodeFrom s.strict s.lower s.mixed (pendOf u) 0 (s.dataIn.take l.toNat) = .ok (bs, q) →
    (short = true ∨ s.chunkScope = true → q = none) → k < out.length →
    exec (.chunk l) s = .next (answered .accepted (BitVec.ofNat 32 k)
      { u with
        status := ⟨.error, .ioFailure, false⟩
        pendValid := q.isSome
        pendNib := q.getD 0
        lastNl := lastNlAfter u.lastNl out
        errChar := 0x01
        errOffset := u.outCount + BitVec.ofNat 64 k
        inCount := u.inCount + BitVec.ofNat 64 l.toNat
        outCount := u.outCount + BitVec.ofNat 64 k
        dataIn := s.dataIn.drop l.toNat
        sinkPlan := s.sinkPlan.tail
        sink := s.sink ++ out.take k })

/-- R128, R111, R132: an accepted CHUNK in direction 1 whose character at index i is the first that is neither a digit nor a skipped
newline: the record, the registers as the i characters before it left them, the rest of the chunk drained, nothing committed. -/
def Obligations.ChunkInvalidDigit : Prop :=
  ∀ (l : BitVec 24) (s : State) (i : Nat) (c : Byte), Invariants s → s.status.state ≠ .error → s.decoding = true →
    l.toNat ≤ s.pchunk.toNat → l.toNat ≤ s.dataIn.length →
    let u := sessionOf s
    decodeFrom s.strict s.lower s.mixed (pendOf u) 0 (s.dataIn.take l.toNat) = .error (i, c) →
    ∃ bs q, decodeFrom s.strict s.lower s.mixed (pendOf u) 0 (s.dataIn.take i) = .ok (bs, q) ∧ s.dataIn[i]? = some c ∧
      exec (.chunk l) s = .next (answered .accepted 0
        { u with
          status := ⟨.error, .invalidDigit, false⟩
          pendValid := q.isSome
          pendNib := q.getD 0
          lastNl := lastNlAfter u.lastNl bs
          errChar := c
          errOffset := u.inCount + BitVec.ofNat 64 i
          inCount := u.inCount + BitVec.ofNat 64 i
          dataIn := s.dataIn.drop l.toNat })

/-- R103, R112, R129, R132: an accepted CHUNK in direction 1 of digits (and skipped newlines) that leaves a high nibble pending at end of
stream, or at its end in chunk scope. -/
def Obligations.ChunkInvalidAlignment : Prop :=
  ∀ (l : BitVec 24) (s : State) (bs : List Byte) (h : Nibble), Invariants s → s.status.state ≠ .error → s.decoding = true →
    l.toNat ≤ s.pchunk.toNat → l.toNat ≤ s.dataIn.length →
    let u := sessionOf s
    decodeFrom s.strict s.lower s.mixed (pendOf u) 0 (s.dataIn.take l.toNat) = .ok (bs, some h) →
    l.toNat < s.pchunk.toNat ∨ s.chunkScope = true →
    exec (.chunk l) s = .next (answered .accepted 0
      { u with
        status := ⟨.error, .invalidAlignment, false⟩
        pendValid := true
        pendNib := h
        lastNl := lastNlAfter u.lastNl bs
        errChar := 0x00
        errOffset := u.inCount + BitVec.ofNat 64 l.toNat
        inCount := u.inCount + BitVec.ofNat 64 l.toNat
        dataIn := s.dataIn.drop l.toNat })

/-- R109, R111, R116, R43, R90: every accepted CHUNK completes, in every state: exactly its L bytes leave the data-in port, OBUF is empty
after it, SINK gains some bytes at its end, one response is given, and CFG, RES, the parameters and the command stream are unchanged. -/
def Obligations.ChunkCompletes : Prop :=
  ∀ (l : BitVec 24) (s : State), l.toNat ≤ s.pchunk.toNat → s.status.state ≠ .error → l.toNat ≤ s.dataIn.length →
    ∃ t, exec (.chunk l) s = .next t ∧ t.dataIn = s.dataIn.drop l.toNat ∧ t.obuf = [] ∧ (∃ d, t.sink = s.sink ++ d) ∧
      (∃ rdata, t.responses = s.responses ++ [⟨rspWord .accepted t.status, rdata⟩]) ∧ t.cfg = s.cfg ∧ t.res = s.res ∧
      t.pchunk = s.pchunk ∧ t.pwrap = s.pwrap ∧ t.cmdIn = s.cmdIn

/-- R117: the session state after a CHUNK that is not illegal: accepted, ERROR if it raised an error, else ACTIVE after a full chunk and
IDLE with DONE after a shorter one; refused in ERROR, the status unchanged. -/
def Obligations.ChunkTransitions : Prop :=
  ∀ (l : BitVec 24) (s t : State), Invariants s → l.toNat ≤ s.pchunk.toNat → exec (.chunk l) s = .next t →
    (s.status.state ≠ .error →
      (t.status.err ≠ .none ∧ t.status.state = .error ∧ t.status.done = false) ∨
        (t.status.err = .none ∧ l.toNat = s.pchunk.toNat ∧ t.status.state = .active ∧ t.status.done = false) ∨
        (t.status.err = .none ∧ l.toNat < s.pchunk.toNat ∧ t.status.state = .idle ∧ t.status.done = true)) ∧
      (s.status.state = .error → t.status = s.status ∧ t = answered .rejState 0 s)

/-- R12: what a CHUNK that has its data has staged when it commits is fewer than OBUF_CAP bytes, in both directions; OBUF_CAP of the
default parameters. -/
def Obligations.StagedWithinCapacity : Prop :=
  (∀ (l : BitVec 24) (s t : State), Invariants s → l.toNat ≤ s.pchunk.toNat → l.toNat ≤ s.dataIn.length → stageChunk l s = .going t →
    t.obuf.length < obufCap s) ∧
    obufCap State.reset = 532481

/-- R22, R23, R24, R26, R27: STRICT, MIXED, TERM and ASCOPE have no effect on an encoding CHUNK, and WRAP none on a decoding one. -/
def Obligations.UnusedConfigurationBits : Prop :=
  ∀ (l : BitVec 24) (s : State) (c : Word), c.getLsbD 0 = s.cfg.getLsbD 0 → c.getLsbD 4 = s.cfg.getLsbD 4 →
    (s.cfg.getLsbD 4 = false ∧ c.getLsbD 1 = s.cfg.getLsbD 1 ∨
      s.cfg.getLsbD 4 = true ∧ c.getLsbD 2 = s.cfg.getLsbD 2 ∧ c.getLsbD 3 = s.cfg.getLsbD 3 ∧ c.getLsbD 5 = s.cfg.getLsbD 5 ∧
        c.getLsbD 6 = s.cfg.getLsbD 6) →
    exec (.chunk l) { s with cfg := c } = withCfg c (exec (.chunk l) s)

/-! ### The codec -/

/-- R80: the output for `bs`, its end-of-stream newline included: unwrapped, the digits of all bytes and a newline; wrapped, ceil(n / W)
lines, LINE(j) the digits of the bytes jW to min(n, (j+1)W) - 1, a newline after each; for no bytes, the newline alone. -/
def Obligations.EncodedTextIsLines : Prop :=
  (∀ (lower : Bool) (w : Nat) (bs : List Byte),
    encodeText false lower w bs ++ [newline] = bs.flatMap (hexPair lower) ++ [newline]) ∧
    (∀ (lower : Bool) (w : Nat) (bs : List Byte), 0 < w → bs ≠ [] →
      encodeText true lower w bs ++ [newline] =
        (List.range ((bs.length + w - 1) / w)).flatMap fun j =>
          ((bs.drop (j * w)).take w).flatMap (hexPair lower) ++ [newline]) ∧
    ∀ (lower : Bool) (w : Nat), encodeText true lower w [] ++ [newline] = [newline]

/-- R97: the total length of an encoded session's output. -/
def Obligations.EncodedLength : Prop :=
  ∀ (wrap lower : Bool) (w : Nat) (bs : List Byte), 0 < w →
    (encodeText wrap lower w bs ++ [newline]).length =
      2 * bs.length + (if wrap = true ∧ 0 < bs.length then (bs.length + w - 1) / w - 1 else 0) + 1

/-- R100: in tolerant mode newlines are skipped wherever they appear: a text decodes as its other characters do strictly. -/
def Obligations.NewlinesSkippedAnywhere : Prop :=
  ∀ (lower mixed : Bool) (h bs : List Byte),
    decodeText false lower mixed h = .ok bs ↔ decodeText true lower mixed (h.filter fun c => c != newline) = .ok bs

/-- R107, the round-trip laws. 1: tolerant decoding of the streaming encoder's output gives the bytes back, for every CASE, WRAP and MIXED.
2: an even number of digits with no newline decodes, and encoding the bytes unwrapped gives the text back, every letter put into the
configured case, which changes nothing when MIXED = 0. 3: strict decoding of the streaming encoder's output fails with InvalidDigit at its
first newline. -/
def Obligations.RoundTripLaws : Prop :=
  (∀ (wrap lower mixed : Bool) (w : Nat) (bs : List Byte), 0 < w →
    decodeText false lower mixed (encodeText wrap lower w bs ++ [newline]) = .ok bs) ∧
    (∀ (strict lower mixed : Bool) (w : Nat) (h : List Byte), h.length % 2 = 0 → (∀ c ∈ h, (c2n lower mixed c).isSome = true) →
      ∃ bs, decodeText strict lower mixed h = .ok bs ∧ encodeText false lower w bs = h.map (normalise lower) ∧
        (mixed = false → encodeText false lower w bs = h)) ∧
    ∀ (wrap lower mixed : Bool) (w : Nat) (bs : List Byte), 0 < w →
      decodeText true lower mixed (encodeText wrap lower w bs ++ [newline]) =
        .error (.digit (if wrap = true then 2 * min bs.length w else 2 * bs.length) newline)

/-- R98, R82, R94: `encodeText` is what ENC_STEP stages over the sequence from LINE_BYTES = 0, and is empty for an empty sequence; STREAM
of any sequence from IDLE in direction 0, every commit accepted in full, gives SINK the text of the whole sequence and one newline. -/
def Obligations.StreamEncodes : Prop :=
  ∀ (s : State) (data : List Byte) (plan : List Nat), Invariants s → s.status.state = .idle → s.decoding = false → AcceptsAll s plan →
    let text := encodeText s.wrap s.lower s.pwrap.toNat data
    (data.foldl (fun t b => encStep b t) { s with lineBytes := 0 }).obuf = text ∧ (data = [] → text = []) ∧
      ∃ t : State, stepN (streamLength s.pchunk.toNat data.length) (streaming s data plan) = .next t ∧
        t.sink = s.sink ++ (text ++ [newline]) ∧ t.status = ⟨.idle, .none, true⟩ ∧ t.inCount = BitVec.ofNat 64 data.length ∧
        t.outCount = BitVec.ofNat 64 (text ++ [newline]).length ∧ t.cmdIn = [] ∧ t.dataIn = []

/-- R106, R82, R115: STREAM of a text that decodes, from IDLE in direction 1 with stream scope, every commit accepted in full: SINK gains
the bytes, and a newline when the sink is a terminal and they do not end in one. -/
def Obligations.StreamDecodes : Prop :=
  ∀ (s : State) (data : List Byte) (plan : List Nat) (bs : List Byte), Invariants s → s.status.state = .idle → s.decoding = true →
    s.chunkScope = false → AcceptsAll s plan → decodeText s.strict s.lower s.mixed data = .ok bs →
    let out := bs ++ terminalNewline s.term (lastNlAfter false bs)
    ∃ t : State, stepN (streamLength s.pchunk.toNat data.length) (streaming s data plan) = .next t ∧
      t.sink = s.sink ++ out ∧ t.status = ⟨.idle, .none, true⟩ ∧ t.inCount = BitVec.ofNat 64 data.length ∧
      t.outCount = BitVec.ofNat 64 out.length ∧ t.cmdIn = [] ∧ t.dataIn = []

/-- R106, R128, R129, R133: STREAM of a text that does not decode, under the same conditions: the run ends in ERROR with the kind and the
record of the text's first error. -/
def Obligations.StreamReportsFirstError : Prop :=
  ∀ (s : State) (data : List Byte) (plan : List Nat) (e : DecodeError), Invariants s → s.status.state = .idle → s.decoding = true →
    s.chunkScope = false → AcceptsAll s plan → decodeText s.strict s.lower s.mixed data = .error e →
    ∃ t : State, stepN (streamLength s.pchunk.toNat data.length) (streaming s data plan) = .next t ∧ t.cmdIn = [] ∧
      match e with
      | .digit off c =>
        t.status = ⟨.error, .invalidDigit, false⟩ ∧ t.errOffset = BitVec.ofNat 64 off ∧ t.errChar = c ∧ t.inCount = BitVec.ofNat 64 off
      | .alignment off =>
        t.status = ⟨.error, .invalidAlignment, false⟩ ∧ t.errOffset = BitVec.ofNat 64 off ∧ t.errChar = 0 ∧ off = data.length ∧
          t.inCount = BitVec.ofNat 64 off

/-! ### The whole machine -/

/-- R48: the invariants hold after reset. -/
def Obligations.ResetMeetsInvariants : Prop := Invariants State.reset

/-- R48, R28, R33: every step, a reset among them, keeps the invariants. -/
def Obligations.StepKeepsInvariants : Prop := ∀ s t : State, Invariants s → step s = .next t → Invariants t

/-- R42: no step changes PCHUNK or PWRAP. -/
def Obligations.ParametersNeverChange : Prop :=
  ∀ s t : State, step s = .next t → t.pchunk = s.pchunk ∧ t.pwrap = s.pwrap

/-- R45, R62, R12: a step only appends to SINK, and at most OBUF_CAP bytes; only a CHUNK appends any. -/
def Obligations.SinkOnlyGrows : Prop :=
  ∀ s t : State, Invariants s → step s = .next t →
    ∃ d, t.sink = s.sink ++ d ∧ d.length ≤ obufCap s ∧
      (d ≠ [] → ∃ l rest, s.cmdIn = .word (encode (.chunk l)) :: rest ∧ s.status.state ≠ .error)

/-- R20, R118, R151: a step changes CFG only by a CFG command in IDLE or by reset. -/
def Obligations.ConfigurationLocked : Prop :=
  ∀ s t : State, step s = .next t → t.cfg ≠ s.cfg →
    (∃ v rest, s.cmdIn = .word (encode (.cfg v)) :: rest ∧ s.status.state = .idle ∧ t.cfg = BitVec.ofNat 32 v.toNat) ∨
      .reset ∈ s.cmdIn.take 2 ∧ t.cfg = 0x00000002

/-- R135, R133, R30: in ERROR no command but ABORT changes the status, the error record, a counter, the pipes or SINK, or takes a data
byte. -/
def Obligations.ErrorLatchHolds : Prop :=
  ∀ (i : Instr) (s t : State), s.status.state = .error → i ≠ .abort → exec i s = .next t →
    t.status = s.status ∧ t.errChar = s.errChar ∧ t.errOffset = s.errOffset ∧ t.inCount = s.inCount ∧ t.outCount = s.outCount ∧
      t.pendValid = s.pendValid ∧ t.pendNib = s.pendNib ∧ t.lineBytes = s.lineBytes ∧ t.lastNl = s.lastNl ∧ t.sink = s.sink ∧
      t.dataIn = s.dataIn

/-- R33, R90: RES is written by LUT_N2C and LUT_C2N only. -/
def Obligations.ResWrittenByLookupsOnly : Prop :=
  ∀ (i : Instr) (s t : State), (∀ n, i ≠ .lutN2c n) → (∀ ch, i ≠ .lutC2n ch) → exec i s = .next t → t.res = s.res

/-- R96, R128: an encoding CHUNK raises no decoding error. -/
def Obligations.EncoderRaisesNoDecodeError : Prop :=
  ∀ (l : BitVec 24) (s t : State), Invariants s → s.status.state ≠ .error → s.decoding = false → exec (.chunk l) s = .next t →
    t.status.err = .none ∨ t.status.err = .ioFailure

/-- The opcode table's word for a command, placed where a step takes its next command in the reset state, is the command the next step
runs (log 11). -/
def Obligations.PlacedCommandRunsNext : Prop :=
  ∀ (nbits w : Nat) (i : Instr), decodeTableWord nbits w = some i →
    step (State.reset.withFetchWord nbits w) =
      exec i { State.reset with dataIn := trailerOf (tableWord nbits w) State.reset }
end

