-- ==== Sys2Proof/Laws/State.lean ====
section
/-! SUPPORT. What each shared update of State writes and keeps, field by field, so that no proof unfolds a record update. -/

namespace Sys2Proof.Machine

/-! R76: a response changes nothing but the responses. -/

@[simp] theorem respond_cfg (acc : Acc) (rdata : Word) (s : State) : (respond acc rdata s).cfg = s.cfg := rfl
@[simp] theorem respond_status (acc : Acc) (rdata : Word) (s : State) : (respond acc rdata s).status = s.status := rfl
@[simp] theorem respond_res (acc : Acc) (rdata : Word) (s : State) : (respond acc rdata s).res = s.res := rfl
@[simp] theorem respond_pendValid (acc : Acc) (rdata : Word) (s : State) : (respond acc rdata s).pendValid = s.pendValid := rfl
@[simp] theorem respond_pendNib (acc : Acc) (rdata : Word) (s : State) : (respond acc rdata s).pendNib = s.pendNib := rfl
@[simp] theorem respond_lineBytes (acc : Acc) (rdata : Word) (s : State) : (respond acc rdata s).lineBytes = s.lineBytes := rfl
@[simp] theorem respond_lastNl (acc : Acc) (rdata : Word) (s : State) : (respond acc rdata s).lastNl = s.lastNl := rfl
@[simp] theorem respond_errChar (acc : Acc) (rdata : Word) (s : State) : (respond acc rdata s).errChar = s.errChar := rfl
@[simp] theorem respond_errOffset (acc : Acc) (rdata : Word) (s : State) : (respond acc rdata s).errOffset = s.errOffset := rfl
@[simp] theorem respond_inCount (acc : Acc) (rdata : Word) (s : State) : (respond acc rdata s).inCount = s.inCount := rfl
@[simp] theorem respond_outCount (acc : Acc) (rdata : Word) (s : State) : (respond acc rdata s).outCount = s.outCount := rfl
@[simp] theorem respond_obufRev (acc : Acc) (rdata : Word) (s : State) : (respond acc rdata s).obufRev = s.obufRev := rfl
@[simp] theorem respond_pchunk (acc : Acc) (rdata : Word) (s : State) : (respond acc rdata s).pchunk = s.pchunk := rfl
@[simp] theorem respond_pwrap (acc : Acc) (rdata : Word) (s : State) : (respond acc rdata s).pwrap = s.pwrap := rfl
@[simp] theorem respond_cmdIn (acc : Acc) (rdata : Word) (s : State) : (respond acc rdata s).cmdIn = s.cmdIn := rfl
@[simp] theorem respond_dataIn (acc : Acc) (rdata : Word) (s : State) : (respond acc rdata s).dataIn = s.dataIn := rfl
@[simp] theorem respond_sinkPlan (acc : Acc) (rdata : Word) (s : State) : (respond acc rdata s).sinkPlan = s.sinkPlan := rfl
@[simp] theorem respond_sink (acc : Acc) (rdata : Word) (s : State) : (respond acc rdata s).sink = s.sink := rfl
@[simp] theorem respond_responses (acc : Acc) (rdata : Word) (s : State) : (respond acc rdata s).responses = s.responses ++ [⟨rspWord acc s.status, rdata⟩] := rfl

/-! R132: what raising an error writes. -/

@[simp] theorem raiseError_cfg (kind : ErrKind) (off : Count) (ch : Byte) (s : State) : (raiseError kind off ch s).cfg = s.cfg := rfl
@[simp] theorem raiseError_status (kind : ErrKind) (off : Count) (ch : Byte) (s : State) : (raiseError kind off ch s).status = ⟨.error, kind, false⟩ := rfl
@[simp] theorem raiseError_res (kind : ErrKind) (off : Count) (ch : Byte) (s : State) : (raiseError kind off ch s).res = s.res := rfl
@[simp] theorem raiseError_pendValid (kind : ErrKind) (off : Count) (ch : Byte) (s : State) : (raiseError kind off ch s).pendValid = s.pendValid := rfl
@[simp] theorem raiseError_pendNib (kind : ErrKind) (off : Count) (ch : Byte) (s : State) : (raiseError kind off ch s).pendNib = s.pendNib := rfl
@[simp] theorem raiseError_lineBytes (kind : ErrKind) (off : Count) (ch : Byte) (s : State) : (raiseError kind off ch s).lineBytes = s.lineBytes := rfl
@[simp] theorem raiseError_lastNl (kind : ErrKind) (off : Count) (ch : Byte) (s : State) : (raiseError kind off ch s).lastNl = s.lastNl := rfl
@[simp] theorem raiseError_errChar (kind : ErrKind) (off : Count) (ch : Byte) (s : State) : (raiseError kind off ch s).errChar = ch := rfl
@[simp] theorem raiseError_errOffset (kind : ErrKind) (off : Count) (ch : Byte) (s : State) : (raiseError kind off ch s).errOffset = off := rfl
@[simp] theorem raiseError_inCount (kind : ErrKind) (off : Count) (ch : Byte) (s : State) : (raiseError kind off ch s).inCount = s.inCount := rfl
@[simp] theorem raiseError_outCount (kind : ErrKind) (off : Count) (ch : Byte) (s : State) : (raiseError kind off ch s).outCount = s.outCount := rfl
@[simp] theorem raiseError_obufRev (kind : ErrKind) (off : Count) (ch : Byte) (s : State) : (raiseError kind off ch s).obufRev = [] := rfl
@[simp] theorem raiseError_pchunk (kind : ErrKind) (off : Count) (ch : Byte) (s : State) : (raiseError kind off ch s).pchunk = s.pchunk := rfl
@[simp] theorem raiseError_pwrap (kind : ErrKind) (off : Count) (ch : Byte) (s : State) : (raiseError kind off ch s).pwrap = s.pwrap := rfl
@[simp] theorem raiseError_cmdIn (kind : ErrKind) (off : Count) (ch : Byte) (s : State) : (raiseError kind off ch s).cmdIn = s.cmdIn := rfl
@[simp] theorem raiseError_dataIn (kind : ErrKind) (off : Count) (ch : Byte) (s : State) : (raiseError kind off ch s).dataIn = s.dataIn := rfl
@[simp] theorem raiseError_sinkPlan (kind : ErrKind) (off : Count) (ch : Byte) (s : State) : (raiseError kind off ch s).sinkPlan = s.sinkPlan := rfl
@[simp] theorem raiseError_sink (kind : ErrKind) (off : Count) (ch : Byte) (s : State) : (raiseError kind off ch s).sink = s.sink := rfl
@[simp] theorem raiseError_responses (kind : ErrKind) (off : Count) (ch : Byte) (s : State) : (raiseError kind off ch s).responses = s.responses := rfl

/-! R124: what ABORT writes. -/

@[simp] theorem abortSession_cfg (s : State) : (abortSession s).cfg = s.cfg := rfl
@[simp] theorem abortSession_status (s : State) : (abortSession s).status = ⟨.idle, .none, false⟩ := rfl
@[simp] theorem abortSession_res (s : State) : (abortSession s).res = s.res := rfl
@[simp] theorem abortSession_pendValid (s : State) : (abortSession s).pendValid = false := rfl
@[simp] theorem abortSession_pendNib (s : State) : (abortSession s).pendNib = 0 := rfl
@[simp] theorem abortSession_lineBytes (s : State) : (abortSession s).lineBytes = 0 := rfl
@[simp] theorem abortSession_lastNl (s : State) : (abortSession s).lastNl = false := rfl
@[simp] theorem abortSession_errChar (s : State) : (abortSession s).errChar = 0 := rfl
@[simp] theorem abortSession_errOffset (s : State) : (abortSession s).errOffset = 0 := rfl
@[simp] theorem abortSession_inCount (s : State) : (abortSession s).inCount = 0 := rfl
@[simp] theorem abortSession_outCount (s : State) : (abortSession s).outCount = 0 := rfl
@[simp] theorem abortSession_obufRev (s : State) : (abortSession s).obufRev = [] := rfl
@[simp] theorem abortSession_pchunk (s : State) : (abortSession s).pchunk = s.pchunk := rfl
@[simp] theorem abortSession_pwrap (s : State) : (abortSession s).pwrap = s.pwrap := rfl
@[simp] theorem abortSession_cmdIn (s : State) : (abortSession s).cmdIn = s.cmdIn := rfl
@[simp] theorem abortSession_dataIn (s : State) : (abortSession s).dataIn = s.dataIn := rfl
@[simp] theorem abortSession_sinkPlan (s : State) : (abortSession s).sinkPlan = s.sinkPlan := rfl
@[simp] theorem abortSession_sink (s : State) : (abortSession s).sink = s.sink := rfl
@[simp] theorem abortSession_responses (s : State) : (abortSession s).responses = s.responses := rfl

/-! R110: what opening a session writes. -/

@[simp] theorem sessionOpen_cfg (s : State) : (sessionOpen s).cfg = s.cfg := rfl
@[simp] theorem sessionOpen_status (s : State) : (sessionOpen s).status = { s.status with done := false } := rfl
@[simp] theorem sessionOpen_res (s : State) : (sessionOpen s).res = s.res := rfl
@[simp] theorem sessionOpen_pendValid (s : State) : (sessionOpen s).pendValid = false := rfl
@[simp] theorem sessionOpen_pendNib (s : State) : (sessionOpen s).pendNib = 0 := rfl
@[simp] theorem sessionOpen_lineBytes (s : State) : (sessionOpen s).lineBytes = 0 := rfl
@[simp] theorem sessionOpen_lastNl (s : State) : (sessionOpen s).lastNl = false := rfl
@[simp] theorem sessionOpen_errChar (s : State) : (sessionOpen s).errChar = s.errChar := rfl
@[simp] theorem sessionOpen_errOffset (s : State) : (sessionOpen s).errOffset = s.errOffset := rfl
@[simp] theorem sessionOpen_inCount (s : State) : (sessionOpen s).inCount = 0 := rfl
@[simp] theorem sessionOpen_outCount (s : State) : (sessionOpen s).outCount = 0 := rfl
@[simp] theorem sessionOpen_obufRev (s : State) : (sessionOpen s).obufRev = [] := rfl
@[simp] theorem sessionOpen_pchunk (s : State) : (sessionOpen s).pchunk = s.pchunk := rfl
@[simp] theorem sessionOpen_pwrap (s : State) : (sessionOpen s).pwrap = s.pwrap := rfl
@[simp] theorem sessionOpen_cmdIn (s : State) : (sessionOpen s).cmdIn = s.cmdIn := rfl
@[simp] theorem sessionOpen_dataIn (s : State) : (sessionOpen s).dataIn = s.dataIn := rfl
@[simp] theorem sessionOpen_sinkPlan (s : State) : (sessionOpen s).sinkPlan = s.sinkPlan := rfl
@[simp] theorem sessionOpen_sink (s : State) : (sessionOpen s).sink = s.sink := rfl
@[simp] theorem sessionOpen_responses (s : State) : (sessionOpen s).responses = s.responses := rfl

/-! R17: what staging a byte writes. -/

@[simp] theorem stage_cfg (b : Byte) (s : State) : (stage b s).cfg = s.cfg := rfl
@[simp] theorem stage_status (b : Byte) (s : State) : (stage b s).status = s.status := rfl
@[simp] theorem stage_res (b : Byte) (s : State) : (stage b s).res = s.res := rfl
@[simp] theorem stage_pendValid (b : Byte) (s : State) : (stage b s).pendValid = s.pendValid := rfl
@[simp] theorem stage_pendNib (b : Byte) (s : State) : (stage b s).pendNib = s.pendNib := rfl
@[simp] theorem stage_lineBytes (b : Byte) (s : State) : (stage b s).lineBytes = s.lineBytes := rfl
@[simp] theorem stage_lastNl (b : Byte) (s : State) : (stage b s).lastNl = (b == newline) := rfl
@[simp] theorem stage_errChar (b : Byte) (s : State) : (stage b s).errChar = s.errChar := rfl
@[simp] theorem stage_errOffset (b : Byte) (s : State) : (stage b s).errOffset = s.errOffset := rfl
@[simp] theorem stage_inCount (b : Byte) (s : State) : (stage b s).inCount = s.inCount := rfl
@[simp] theorem stage_outCount (b : Byte) (s : State) : (stage b s).outCount = s.outCount := rfl
@[simp] theorem stage_obufRev (b : Byte) (s : State) : (stage b s).obufRev = b :: s.obufRev := rfl
@[simp] theorem stage_pchunk (b : Byte) (s : State) : (stage b s).pchunk = s.pchunk := rfl
@[simp] theorem stage_pwrap (b : Byte) (s : State) : (stage b s).pwrap = s.pwrap := rfl
@[simp] theorem stage_cmdIn (b : Byte) (s : State) : (stage b s).cmdIn = s.cmdIn := rfl
@[simp] theorem stage_dataIn (b : Byte) (s : State) : (stage b s).dataIn = s.dataIn := rfl
@[simp] theorem stage_sinkPlan (b : Byte) (s : State) : (stage b s).sinkPlan = s.sinkPlan := rfl
@[simp] theorem stage_sink (b : Byte) (s : State) : (stage b s).sink = s.sink := rfl
@[simp] theorem stage_responses (b : Byte) (s : State) : (stage b s).responses = s.responses := rfl

/-! R111: what counting a byte writes. -/

@[simp] theorem countIn_cfg (s : State) : (countIn s).cfg = s.cfg := rfl
@[simp] theorem countIn_status (s : State) : (countIn s).status = s.status := rfl
@[simp] theorem countIn_res (s : State) : (countIn s).res = s.res := rfl
@[simp] theorem countIn_pendValid (s : State) : (countIn s).pendValid = s.pendValid := rfl
@[simp] theorem countIn_pendNib (s : State) : (countIn s).pendNib = s.pendNib := rfl
@[simp] theorem countIn_lineBytes (s : State) : (countIn s).lineBytes = s.lineBytes := rfl
@[simp] theorem countIn_lastNl (s : State) : (countIn s).lastNl = s.lastNl := rfl
@[simp] theorem countIn_errChar (s : State) : (countIn s).errChar = s.errChar := rfl
@[simp] theorem countIn_errOffset (s : State) : (countIn s).errOffset = s.errOffset := rfl
@[simp] theorem countIn_inCount (s : State) : (countIn s).inCount = s.inCount + 1 := rfl
@[simp] theorem countIn_outCount (s : State) : (countIn s).outCount = s.outCount := rfl
@[simp] theorem countIn_obufRev (s : State) : (countIn s).obufRev = s.obufRev := rfl
@[simp] theorem countIn_pchunk (s : State) : (countIn s).pchunk = s.pchunk := rfl
@[simp] theorem countIn_pwrap (s : State) : (countIn s).pwrap = s.pwrap := rfl
@[simp] theorem countIn_cmdIn (s : State) : (countIn s).cmdIn = s.cmdIn := rfl
@[simp] theorem countIn_dataIn (s : State) : (countIn s).dataIn = s.dataIn := rfl
@[simp] theorem countIn_sinkPlan (s : State) : (countIn s).sinkPlan = s.sinkPlan := rfl
@[simp] theorem countIn_sink (s : State) : (countIn s).sink = s.sink := rfl
@[simp] theorem countIn_responses (s : State) : (countIn s).responses = s.responses := rfl

/-! R17: what taking data writes. -/

@[simp] theorem takeData_cfg (n : Nat) (s : State) : (takeData n s).cfg = s.cfg := rfl
@[simp] theorem takeData_status (n : Nat) (s : State) : (takeData n s).status = s.status := rfl
@[simp] theorem takeData_res (n : Nat) (s : State) : (takeData n s).res = s.res := rfl
@[simp] theorem takeData_pendValid (n : Nat) (s : State) : (takeData n s).pendValid = s.pendValid := rfl
@[simp] theorem takeData_pendNib (n : Nat) (s : State) : (takeData n s).pendNib = s.pendNib := rfl
@[simp] theorem takeData_lineBytes (n : Nat) (s : State) : (takeData n s).lineBytes = s.lineBytes := rfl
@[simp] theorem takeData_lastNl (n : Nat) (s : State) : (takeData n s).lastNl = s.lastNl := rfl
@[simp] theorem takeData_errChar (n : Nat) (s : State) : (takeData n s).errChar = s.errChar := rfl
@[simp] theorem takeData_errOffset (n : Nat) (s : State) : (takeData n s).errOffset = s.errOffset := rfl
@[simp] theorem takeData_inCount (n : Nat) (s : State) : (takeData n s).inCount = s.inCount := rfl
@[simp] theorem takeData_outCount (n : Nat) (s : State) : (takeData n s).outCount = s.outCount := rfl
@[simp] theorem takeData_obufRev (n : Nat) (s : State) : (takeData n s).obufRev = s.obufRev := rfl
@[simp] theorem takeData_pchunk (n : Nat) (s : State) : (takeData n s).pchunk = s.pchunk := rfl
@[simp] theorem takeData_pwrap (n : Nat) (s : State) : (takeData n s).pwrap = s.pwrap := rfl
@[simp] theorem takeData_cmdIn (n : Nat) (s : State) : (takeData n s).cmdIn = s.cmdIn := rfl
@[simp] theorem takeData_dataIn (n : Nat) (s : State) : (takeData n s).dataIn = s.dataIn.drop n := rfl
@[simp] theorem takeData_sinkPlan (n : Nat) (s : State) : (takeData n s).sinkPlan = s.sinkPlan := rfl
@[simp] theorem takeData_sink (n : Nat) (s : State) : (takeData n s).sink = s.sink := rfl
@[simp] theorem takeData_responses (n : Nat) (s : State) : (takeData n s).responses = s.responses := rfl

/-! R116: what a transfer writes. -/

@[simp] theorem transfer_cfg (s : State) : (transfer s).cfg = s.cfg := rfl
@[simp] theorem transfer_status (s : State) : (transfer s).status = s.status := rfl
@[simp] theorem transfer_res (s : State) : (transfer s).res = s.res := rfl
@[simp] theorem transfer_pendValid (s : State) : (transfer s).pendValid = s.pendValid := rfl
@[simp] theorem transfer_pendNib (s : State) : (transfer s).pendNib = s.pendNib := rfl
@[simp] theorem transfer_lineBytes (s : State) : (transfer s).lineBytes = s.lineBytes := rfl
@[simp] theorem transfer_lastNl (s : State) : (transfer s).lastNl = s.lastNl := rfl
@[simp] theorem transfer_errChar (s : State) : (transfer s).errChar = s.errChar := rfl
@[simp] theorem transfer_errOffset (s : State) : (transfer s).errOffset = s.errOffset := rfl
@[simp] theorem transfer_inCount (s : State) : (transfer s).inCount = s.inCount := rfl
@[simp] theorem transfer_outCount (s : State) : (transfer s).outCount = s.outCount + BitVec.ofNat 64 (acceptedCount s) := rfl
@[simp] theorem transfer_obufRev (s : State) : (transfer s).obufRev = [] := rfl
@[simp] theorem transfer_pchunk (s : State) : (transfer s).pchunk = s.pchunk := rfl
@[simp] theorem transfer_pwrap (s : State) : (transfer s).pwrap = s.pwrap := rfl
@[simp] theorem transfer_cmdIn (s : State) : (transfer s).cmdIn = s.cmdIn := rfl
@[simp] theorem transfer_dataIn (s : State) : (transfer s).dataIn = s.dataIn := rfl
@[simp] theorem transfer_sinkPlan (s : State) : (transfer s).sinkPlan = s.sinkPlan.tail := rfl
@[simp] theorem transfer_sink (s : State) : (transfer s).sink = s.sink ++ s.obuf.take (acceptedCount s) := rfl
@[simp] theorem transfer_responses (s : State) : (transfer s).responses = s.responses := rfl

/-! R51: what taking an input writes. -/

@[simp] theorem dropInput_cfg (s : State) : (dropInput s).cfg = s.cfg := rfl
@[simp] theorem dropInput_status (s : State) : (dropInput s).status = s.status := rfl
@[simp] theorem dropInput_res (s : State) : (dropInput s).res = s.res := rfl
@[simp] theorem dropInput_pendValid (s : State) : (dropInput s).pendValid = s.pendValid := rfl
@[simp] theorem dropInput_pendNib (s : State) : (dropInput s).pendNib = s.pendNib := rfl
@[simp] theorem dropInput_lineBytes (s : State) : (dropInput s).lineBytes = s.lineBytes := rfl
@[simp] theorem dropInput_lastNl (s : State) : (dropInput s).lastNl = s.lastNl := rfl
@[simp] theorem dropInput_errChar (s : State) : (dropInput s).errChar = s.errChar := rfl
@[simp] theorem dropInput_errOffset (s : State) : (dropInput s).errOffset = s.errOffset := rfl
@[simp] theorem dropInput_inCount (s : State) : (dropInput s).inCount = s.inCount := rfl
@[simp] theorem dropInput_outCount (s : State) : (dropInput s).outCount = s.outCount := rfl
@[simp] theorem dropInput_obufRev (s : State) : (dropInput s).obufRev = s.obufRev := rfl
@[simp] theorem dropInput_pchunk (s : State) : (dropInput s).pchunk = s.pchunk := rfl
@[simp] theorem dropInput_pwrap (s : State) : (dropInput s).pwrap = s.pwrap := rfl
@[simp] theorem dropInput_cmdIn (s : State) : (dropInput s).cmdIn = s.cmdIn.tail := rfl
@[simp] theorem dropInput_dataIn (s : State) : (dropInput s).dataIn = s.dataIn := rfl
@[simp] theorem dropInput_sinkPlan (s : State) : (dropInput s).sinkPlan = s.sinkPlan := rfl
@[simp] theorem dropInput_sink (s : State) : (dropInput s).sink = s.sink := rfl
@[simp] theorem dropInput_responses (s : State) : (dropInput s).responses = s.responses := rfl

end Sys2Proof.Machine
end

