-- ==== Sys2Proof/Laws/Ops.lean ====
section
/-! SUPPORT. What the shared operations of Machine/Ops.lean and Machine/Operands.lean do, said once. -/

namespace Sys2Proof.Machine

open Sys2Proof.Safety

/-! Refusals and responses in the terms of Safety. -/

@[simp] theorem respond_eq_answered (acc : Acc) (r : Word) (s : State) : respond acc r s = answered acc r s := rfl

@[simp] theorem accept_eq_answered (r : Word) (s : State) : accept r s = answered .accepted r s := rfl

@[simp] theorem rejectIllegal_eq_answered (s : State) : rejectIllegal s = answered .rejIllegal 0 s := rfl

@[simp] theorem rejectState_eq_answered (s : State) : rejectState s = answered .rejState 0 s := rfl

/-- The machine's legality check is rule R74's well-formedness. -/
theorem fieldsLegal_eq_wellFormed (i : Instr) (s : State) : fieldsLegal i s = i.wellFormed s.pchunk := by
  cases i <;> rfl

/-! `afterChecks` (R75): its three outcomes. -/

theorem afterChecks_of_permitted {i : Instr} {s : State} {run : State → Host.Outcome State Fault Refusal}
    (hl : fieldsLegal i s = true) (hp : permitted i s.status.state = true) : afterChecks i s run = run s := by
  simp [afterChecks, hl, hp]

theorem afterChecks_of_illegal {i : Instr} {s : State} {run : State → Host.Outcome State Fault Refusal}
    (hl : fieldsLegal i s = false) : afterChecks i s run = .next (answered .rejIllegal 0 s) := by
  simp [afterChecks, hl]

theorem afterChecks_of_not_permitted {i : Instr} {s : State} {run : State → Host.Outcome State Fault Refusal}
    (hl : fieldsLegal i s = true) (hp : permitted i s.status.state = false) :
    afterChecks i s run = .next (answered .rejState 0 s) := by
  simp [afterChecks, hl, hp]

theorem afterChecks_next {i : Instr} {s t : State} {run : State → Host.Outcome State Fault Refusal}
    (h : afterChecks i s run = .next t) :
    t = answered .rejIllegal 0 s ∨ t = answered .rejState 0 s ∨
      (fieldsLegal i s = true ∧ permitted i s.status.state = true ∧ run s = .next t) := by
  unfold afterChecks at h
  split at h
  · split at h
    · exact .inr (.inr ⟨‹_›, ‹_›, h⟩)
    · exact .inr (.inl (by simpa using h.symm))
  · exact .inl (by simpa using h.symm)

/-! `Run.andThen`. -/

@[simp] theorem andThen_going (s : State) (f : State → Run) : (Run.going s).andThen f = f s := rfl

@[simp] theorem andThen_raised (s : State) (f : State → Run) : (Run.raised s).andThen f = .raised s := rfl

/-- The state a part of a CHUNK ends in, whether it goes on or has raised. -/
def Run.state : Run → State
  | .going s => s
  | .raised s => s

@[simp] theorem state_going (s : State) : (Run.going s).state = s := rfl

@[simp] theorem state_raised (s : State) : (Run.raised s).state = s := rfl

/-- A property that both parts keep is kept by the two in sequence. -/
theorem andThen_keeps {P : State → Prop} {r : Run} {f : State → Run} (hr : P r.state)
    (hf : ∀ s, r = .going s → P s → P (f s).state) : P (r.andThen f).state := by
  cases r with
  | going s => exact hf s rfl hr
  | raised s => exact hr

/-! Opening a session, reset. -/

theorem openIfIdle_eq_sessionOf {s : State} (h : s.obufRev = []) : openIfIdle s = sessionOf s := by
  unfold openIfIdle sessionOf
  split
  · simp [sessionOpen, h]
  · rfl

theorem obuf_eq_nil {s : State} : s.obuf = [] ↔ s.obufRev = [] := by simp [State.obuf]

/-- R49: the state after the reset input. -/
theorem applyReset_eq (s : State) : applyReset s = { State.reset with pchunk := s.pchunk, pwrap := s.pwrap, cmdIn := s.cmdIn, dataIn := s.dataIn, sinkPlan := s.sinkPlan, sink := s.sink, responses := s.responses } := rfl

end Sys2Proof.Machine
end

