-- ==== Sys2Proof/Laws/Lut.lean ====
section
/-! SUPPORT. The facts about N2C and C2N the pipes' lemmas use (R84, R85, R86), by evaluation of the two tables. -/

namespace Sys2Proof.Machine

/-- No digit is a newline (R84). -/
theorem n2c_ne_newline (lower : Bool) (n : Nibble) : n2c lower n ≠ newline := by
  revert lower n; decide

/-- R86: the table knows nothing of newlines. -/
theorem c2n_newline (lower mixed : Bool) : c2n lower mixed newline = none := by
  revert lower mixed; decide

@[simp] theorem joinNibbles_high_low (b : Byte) : joinNibbles (highNibble b) (lowNibble b) = b := by
  revert b; decide

@[simp] theorem highNibble_join (h l : Nibble) : highNibble (joinNibbles h l) = h := by
  revert h l; decide

@[simp] theorem lowNibble_join (h l : Nibble) : lowNibble (joinNibbles h l) = l := by
  revert h l; decide

end Sys2Proof.Machine
end

