-- ==== Sys2Proof/Laws/Decoder.lean ====
section
/-! SUPPORT. The decoder pipe as a function of character sequences (R99 to R103): what a chunk's characters stage, and where they stop. -/

namespace Sys2Proof.Machine

open Sys2Proof.Safety

/-! `lastNlAfter` -/

@[simp] theorem lastNlAfter_nil (b : Bool) : lastNlAfter b [] = b := rfl

theorem lastNlAfter_append (b : Bool) (xs ys : List Byte) :
    lastNlAfter b (xs ++ ys) = lastNlAfter (lastNlAfter b xs) ys := by
  unfold lastNlAfter
  rw [List.getLast?_append]
  cases ys.getLast? <;> simp

theorem lastNlAfter_cons (b : Bool) (x : Byte) (ys : List Byte) :
    lastNlAfter b (x :: ys) = lastNlAfter (x == newline) ys := by
  rw [← List.singleton_append, lastNlAfter_append]
  rfl

/-! The state after characters that raise nothing -/

/-- The state after `n` characters in direction 1 that completed the bytes `bs` and left `q` pending (R99, R111). -/
def decoded (s : State) (n : Nat) (bs : List Byte) (q : Option Nibble) : State :=
  { s with
    obufRev := bs.reverse ++ s.obufRev
    lastNl := lastNlAfter s.lastNl bs
    pendValid := q.isSome
    pendNib := q.getD 0
    inCount := s.inCount + BitVec.ofNat 64 n }

/-- R48 item 4 of one state. -/
def PendClear (s : State) : Prop := s.pendValid = false → s.pendNib = 0

theorem pendClear_decoded (s : State) (n : Nat) (bs : List Byte) (q : Option Nibble) : PendClear (decoded s n bs q) := by
  cases q <;> simp [PendClear, decoded]

@[simp] theorem pendOf_decoded (s : State) (n : Nat) (bs : List Byte) (q : Option Nibble) : pendOf (decoded s n bs q) = q := by
  cases q <;> simp [pendOf, decoded]

theorem decoded_nothing {s : State} (hp : PendClear s) : decoded s 0 [] (pendOf s) = s := by
  cases hv : s.pendValid
  · have := hp hv
    simp [decoded, pendOf, hv, ← this]
    rw [← hv]
  · simp [decoded, pendOf, hv]
    rw [← hv]

theorem decoded_decoded (s : State) (m n : Nat) (as bs : List Byte) (p q : Option Nibble) :
    decoded (decoded s m as p) n bs q = decoded s (m + n) (as ++ bs) q := by
  simp [decoded, lastNlAfter_append, BitVec.ofNat_add, BitVec.add_assoc]

/-! One character -/

/-- R100: a newline in tolerant mode. -/
theorem decStep_skip {s : State} (off : Count) (hs : s.strict = false) : decStep newline off s = .going s := by
  simp [decStep, hs]

/-- R102: a character that is neither a digit nor a skipped newline. -/
theorem decStep_invalid {s : State} {c : Byte} (off : Count) (hs : ¬ (c = newline ∧ s.strict = false))
    (hc : c2n s.lower s.mixed c = none) : decStep c off s = .raised (raiseError .invalidDigit off c s) := by
  simp [decStep, hs, hc]

/-- R99: a digit, counted: the high nibble of a pair. -/
theorem countIn_takeDigit_high {s : State} (v : Nibble) (hp : pendOf s = none) :
    countIn (takeDigit v s) = decoded s 1 [] (some v) := by
  have : s.pendValid = false := by
    cases h : s.pendValid <;> simp_all [pendOf]
  simp [takeDigit, this, countIn, decoded]

/-- R99: a digit, counted: the low nibble that completes a byte. -/
theorem countIn_takeDigit_low {s : State} {h : Nibble} (v : Nibble) (hp : pendOf s = some h) :
    countIn (takeDigit v s) = decoded s 1 [joinNibbles h v] none := by
  have : s.pendValid = true ∧ s.pendNib = h := by
    cases hv : s.pendValid <;> simp_all [pendOf]
  simp [takeDigit, this, countIn, decoded, stage, lastNlAfter]

/-! A chunk's characters -/

/-- `decodeFrom` in terms of its first character. -/
theorem decodeFrom_cons (strict lower mixed : Bool) (p : Option Nibble) (k : Nat) (c : Byte) (cs : List Byte) :
    decodeFrom strict lower mixed p k (c :: cs) =
      if c = newline ∧ strict = false then decodeFrom strict lower mixed p (k + 1) cs
      else match c2n lower mixed c with
        | none => .error (k, c)
        | some v => match p with
          | none => decodeFrom strict lower mixed (some v) (k + 1) cs
          | some h => match decodeFrom strict lower mixed none (k + 1) cs with
            | .error e => .error e
            | .ok (bs, q) => .ok (joinNibbles h v :: bs, q) := by
  rw [decodeFrom]
  try rfl

theorem feed_cons_going {c : Byte} {cs : List Byte} {s t : State} (hd : s.decoding = true) (h : decStep c s.inCount s = .going t) :
    feed (c :: cs) s = feed cs (countIn t) := by
  simp [feed, pipeStep, hd, h]

theorem feed_cons_raised {c : Byte} {cs : List Byte} {s t : State} (hd : s.decoding = true) (h : decStep c s.inCount s = .raised t) :
    feed (c :: cs) s = .raised t := by
  simp [feed, pipeStep, hd, h]

/-- What the first character of a chunk does in direction 1: it raises InvalidDigit, or it is counted with the bytes and the pending
nibble `decodeFrom` gives. -/
theorem feed_decoding_cons (c : Byte) (cs : List Byte) {s : State} (k : Nat) (hd : s.decoding = true) (hp : PendClear s) :
    (decodeFrom s.strict s.lower s.mixed (pendOf s) k (c :: cs) = .error (k, c) ∧
      feed (c :: cs) s = .raised (raiseError .invalidDigit s.inCount c s)) ∨
    ∃ b q, (∀ ds, decodeFrom s.strict s.lower s.mixed (pendOf s) k (c :: ds) =
        match decodeFrom s.strict s.lower s.mixed q (k + 1) ds with
        | .error e => .error e
        | .ok (bs, r) => .ok (b ++ bs, r)) ∧
      feed (c :: cs) s = feed cs (decoded s 1 b q) := by
  by_cases hs : c = newline ∧ s.strict = false
  · refine .inr ⟨[], pendOf s, fun ds => ?_, ?_⟩
    · rw [decodeFrom_cons, if_pos hs]
      cases decodeFrom s.strict s.lower s.mixed (pendOf s) (k + 1) ds <;> simp
    · obtain ⟨rfl, hs⟩ := hs
      rw [feed_cons_going hd (decStep_skip _ hs)]
      conv_lhs => rw [← decoded_nothing hp]
      congr 1
      simp [countIn, decoded]
  · cases hc : c2n s.lower s.mixed c with
    | none =>
      refine .inl ⟨?_, feed_cons_raised hd (decStep_invalid _ hs hc)⟩
      rw [decodeFrom_cons, if_neg hs, hc]
    | some v =>
      have hstep : decStep c s.inCount s = .going (takeDigit v s) := by
        unfold decStep
        rw [if_neg hs, hc]
      cases hq : pendOf s with
      | none =>
        refine .inr ⟨[], some v, fun ds => ?_, ?_⟩
        · rw [decodeFrom_cons, if_neg hs, hc]
          cases hx : decodeFrom s.strict s.lower s.mixed (some v) (k + 1) ds <;> simp [hx]
        · rw [feed_cons_going hd hstep, countIn_takeDigit_high v hq]
      | some h =>
        refine .inr ⟨[joinNibbles h v], none, fun ds => ?_, ?_⟩
        · rw [decodeFrom_cons, if_neg hs, hc]
          rfl
        · rw [feed_cons_going hd hstep, countIn_takeDigit_low v hq]

/-- R99, R111: characters that decode stage their bytes and are counted; nothing is raised and nothing else is written. -/
theorem feed_decoding_ok (cs : List Byte) {s : State} {k : Nat} {bs : List Byte} {q : Option Nibble} (hd : s.decoding = true)
    (hp : PendClear s) (h : decodeFrom s.strict s.lower s.mixed (pendOf s) k cs = .ok (bs, q)) :
    feed cs s = .going (decoded s cs.length bs q) := by
  induction cs generalizing s k bs q with
  | nil =>
    simp only [decodeFrom, Except.ok.injEq, Prod.mk.injEq] at h
    obtain ⟨rfl, rfl⟩ := h
    simp [feed, decoded_nothing hp]
  | cons c cs ih =>
    rcases feed_decoding_cons c cs k hd hp with ⟨he, -⟩ | ⟨b, r, hdec, hfeed⟩
    · rw [he] at h
      simp at h
    · rw [hdec] at h
      split at h
      · simp at h
      · rename_i bs' r' h'
        simp only [Except.ok.injEq, Prod.mk.injEq] at h
        obtain ⟨rfl, rfl⟩ := h
        rw [hfeed, ih (s := decoded s 1 b r) (k := k + 1) hd (pendClear_decoded _ _ _ _) (by rw [pendOf_decoded]; exact h'),
          decoded_decoded, List.length_cons, Nat.add_comm]

/-- R99, R102, R111, R128: at the first character that is neither a digit nor a skipped newline, InvalidDigit is raised in the state the
characters before it left. -/
theorem feed_decoding_error (cs : List Byte) {s : State} {k j : Nat} {c : Byte} (hd : s.decoding = true) (hp : PendClear s)
    (h : decodeFrom s.strict s.lower s.mixed (pendOf s) k cs = .error (j, c)) :
    ∃ i bs q, j = k + i ∧ cs[i]? = some c ∧ decodeFrom s.strict s.lower s.mixed (pendOf s) k (cs.take i) = .ok (bs, q) ∧
      feed cs s = .raised (raiseError .invalidDigit (s.inCount + BitVec.ofNat 64 i) c (decoded s i bs q)) := by
  induction cs generalizing s k with
  | nil => simp [decodeFrom] at h
  | cons d cs ih =>
    rcases feed_decoding_cons d cs k hd hp with ⟨he, hf⟩ | ⟨b, r, hdec, hfeed⟩
    · rw [he] at h
      simp only [Except.error.injEq, Prod.mk.injEq] at h
      obtain ⟨rfl, rfl⟩ := h
      exact ⟨0, [], pendOf s, rfl, rfl, rfl, by simp [hf, decoded_nothing hp]⟩
    · rw [hdec] at h
      split at h
      · rename_i e h'
        simp only [Except.error.injEq] at h
        subst h
        obtain ⟨i, bs, q, hj, hi, hpre, hraise⟩ :=
          ih (s := decoded s 1 b r) (k := k + 1) hd (pendClear_decoded _ _ _ _) (by rw [pendOf_decoded]; exact h')
        refine ⟨i + 1, b ++ bs, q, by omega, by simpa using hi, ?_, ?_⟩
        · rw [List.take_succ_cons, hdec]
          rw [pendOf_decoded] at hpre
          have hpre : decodeFrom s.strict s.lower s.mixed r (k + 1) (cs.take i) = .ok (bs, q) := hpre
          rw [hpre]
        · rw [hfeed, hraise, decoded_decoded, Nat.add_comm i 1]
          simp [decoded, BitVec.ofNat_add, BitVec.add_assoc]
      · simp at h

/-- The bytes and the pending nibble do not depend on the index of the first character. -/
theorem decodeFrom_ok_shift (strict lower mixed : Bool) (p : Option Nibble) (k m : Nat) (cs : List Byte) (r : List Byte × Option Nibble) :
    decodeFrom strict lower mixed p k cs = .ok r ↔ decodeFrom strict lower mixed p m cs = .ok r := by
  induction cs generalizing p k m r with
  | nil => simp [decodeFrom]
  | cons c cs ih =>
    rw [decodeFrom_cons, decodeFrom_cons]
    split
    · exact ih _ _ _ _
    · split
      · simp
      · split
        · exact ih _ _ _ _
        · rename_i h
          have := ih none (k + 1) (m + 1)
          cases h1 : decodeFrom strict lower mixed none (k + 1) cs with
          | error e =>
            cases h2 : decodeFrom strict lower mixed none (m + 1) cs with
            | error e => simp
            | ok x => exact absurd ((this x).2 h2) (by simp [h1])
          | ok x =>
            rw [(this x).1 h1]

/-- Two characters a byte, of which one may have been pending. -/
theorem decodeFrom_length_le {strict lower mixed : Bool} {p q : Option Nibble} {k : Nat} {cs bs : List Byte}
    (h : decodeFrom strict lower mixed p k cs = .ok (bs, q)) :
    2 * bs.length ≤ cs.length + (if p.isSome then 1 else 0) := by
  induction cs generalizing p k bs q with
  | nil =>
    simp only [decodeFrom, Except.ok.injEq, Prod.mk.injEq] at h
    obtain ⟨rfl, -⟩ := h
    simp
  | cons c cs ih =>
    rw [decodeFrom_cons] at h
    split at h
    · have := ih h
      simp only [List.length_cons]
      omega
    · split at h
      · cases h
      · split at h
        · have := ih h
          simp only [List.length_cons, Option.isSome_some, Option.isSome_none, if_true, Bool.false_eq_true, if_false] at *
          omega
        · split at h
          · cases h
          · rename_i h'
            cases h
            have := ih h'
            simp only [List.length_cons, Option.isSome_some, Option.isSome_none, if_true, Bool.false_eq_true, if_false] at *
            omega

end Sys2Proof.Machine
end

