-- ==== Sys2Proof/Laws/Encoder.lean ====
section
/-! SUPPORT. The encoder pipe as a function of byte sequences (R91, R93, R94): what ENC_STEP writes, and what a chunk's bytes stage. -/

namespace Sys2Proof.Machine

open Sys2Proof.Safety

/-! `encodeFrom` -/

@[simp] theorem encodeFrom_nil (wrap lower : Bool) (w off : Nat) : encodeFrom wrap lower w off [] = [] := rfl

/-- The text does not depend on the offset when wrapping is off. -/
theorem encodeFrom_unwrapped (lower : Bool) (w off : Nat) (bs : List Byte) :
    encodeFrom false lower w off bs = bs.flatMap (hexPair lower) := by
  induction bs generalizing off with
  | nil => rfl
  | cons b bs ih => simp [encodeFrom, ih]

/-- It depends on a positive offset only modulo the line length. -/
theorem encodeFrom_congr (wrap lower : Bool) (w : Nat) (bs : List Byte) {m n : Nat} (hm : 0 < m) (hn : 0 < n)
    (h : m % w = n % w) : encodeFrom wrap lower w m bs = encodeFrom wrap lower w n bs := by
  induction bs generalizing m n with
  | nil => rfl
  | cons b bs ih =>
    have : (m + 1) % w = (n + 1) % w := by rw [Nat.add_mod, h, ← Nat.add_mod]
    simp [encodeFrom, hm, hn, h, ih (Nat.succ_pos m) (Nat.succ_pos n) this]

theorem encodeFrom_append (wrap lower : Bool) (w off : Nat) (as bs : List Byte) :
    encodeFrom wrap lower w off (as ++ bs) = encodeFrom wrap lower w off as ++ encodeFrom wrap lower w (off + as.length) bs := by
  induction as generalizing off with
  | nil => rfl
  | cons a as ih => simp [encodeFrom, ih, Nat.add_assoc, Nat.add_comm 1]

theorem encodeFrom_ne_nil (wrap lower : Bool) (w off : Nat) {bs : List Byte} (h : bs ≠ []) :
    encodeFrom wrap lower w off bs ≠ [] := by
  cases bs with
  | nil => exact absurd rfl h
  | cons b bs => simp [encodeFrom, hexPair]

/-- The last character of a nonempty text is a digit, so no newline (R91). -/
theorem encodeFrom_getLast_ne_newline (wrap lower : Bool) (w off : Nat) (bs : List Byte) (c : Byte)
    (h : (encodeFrom wrap lower w off bs).getLast? = some c) : c ≠ newline := by
  induction bs generalizing off with
  | nil => simp at h
  | cons b bs ih =>
    by_cases hb : bs = []
    · subst hb
      simp [encodeFrom, hexPair, List.getLast?_append] at h
      exact h ▸ n2c_ne_newline lower _
    · refine ih (off + 1) ?_
      have hne := encodeFrom_ne_nil wrap lower w (off + 1) hb
      have := List.getLast?_append (l := (if wrap = true ∧ 0 < off ∧ off % w = 0 then [newline] else []) ++ hexPair lower b)
        (l' := encodeFrom wrap lower w (off + 1) bs)
      rw [encodeFrom, this, List.getLast?_eq_some_getLast hne] at h
      rw [List.getLast?_eq_some_getLast hne]
      simpa using h

/-! Its length -/

/-- One more byte adds a line when the bytes before it fill theirs. -/
theorem ceilDiv_succ {w : Nat} (m : Nat) (hw : 0 < w) :
    (m + 1 + w - 1) / w = (m + w - 1) / w + (if m % w = 0 then 1 else 0) := by
  have h1 := Nat.div_add_mod m w
  have h2 := Nat.mod_lt m hw
  generalize m / w = q at *
  generalize m % w = r at *
  subst h1
  have a1 : (q + 1) * w = w * q + w := by ring
  have a2 : (q + 1 + 1) * w = w * q + w + w := by ring
  have a3 : q * w = w * q := by ring
  split
  · subst r
    have e1 : (w * q + 0 + 1 + w - 1) / w = q + 1 := by apply Nat.div_eq_of_lt_le <;> omega
    have e2 : (w * q + 0 + w - 1) / w = q := by apply Nat.div_eq_of_lt_le <;> omega
    omega
  · have e1 : (w * q + r + 1 + w - 1) / w = q + 1 := by apply Nat.div_eq_of_lt_le <;> omega
    have e2 : (w * q + r + w - 1) / w = q + 1 := by apply Nat.div_eq_of_lt_le <;> omega
    omega

theorem ceilDiv_add_le {w : Nat} (a n : Nat) (hw : 0 < w) : (a + n + w - 1) / w ≤ (a + w - 1) / w + (n + w - 1) / w := by
  rw [← Nat.lt_succ_iff, Nat.div_lt_iff_lt_mul hw]
  have h1 := Nat.div_add_mod (a + w - 1) w
  have h2 := Nat.mod_lt (a + w - 1) hw
  have h3 := Nat.div_add_mod (n + w - 1) w
  have h4 := Nat.mod_lt (n + w - 1) hw
  generalize (a + w - 1) / w = q at *
  generalize (n + w - 1) / w = r at *
  rw [Nat.succ_eq_add_one, show (q + r + 1) * w = w * q + w * r + w by ring]
  omega

/-- Two characters a byte, and at most one newline for each line length begun (R12). -/
theorem encodeFrom_length_le (wrap lower : Bool) {w : Nat} (hw : 0 < w) (off : Nat) (bs : List Byte) :
    (encodeFrom wrap lower w off bs).length ≤ 2 * bs.length + (bs.length + w - 1) / w := by
  have key : ∀ off, (encodeFrom wrap lower w off bs).length + (off + w - 1) / w ≤ 2 * bs.length + (off + bs.length + w - 1) / w := by
    induction bs with
    | nil => simp
    | cons b bs ih =>
      intro off
      have h1 := ih (off + 1)
      have h2 := ceilDiv_succ off hw
      simp only [encodeFrom, List.length_append, List.length_cons, hexPair, List.length_nil]
      rw [show off + (bs.length + 1) = off + 1 + bs.length by omega]
      split <;> split at h2 <;> simp_all <;> omega
  have h1 := key off
  have h2 := ceilDiv_add_le off bs.length hw
  omega

/-! ENC_STEP -/

/-- LINE_BYTES after a byte (R91). -/
def lineNext (s : State) : Word :=
  if s.wrap then (if s.lineBytes = s.pwrap then 1 else s.lineBytes + 1) else s.lineBytes

/-- The wrap newline ENC_STEP stages, if it stages one (R91, R92). -/
def wrapNewline (s : State) : List Byte := if s.wrap = true ∧ s.lineBytes = s.pwrap then [newline] else []

/-- R91: what ENC_STEP stages and writes, and that it writes nothing else. -/
theorem encStep_eq (b : Byte) (s : State) :
    encStep b s =
      { s with
        obufRev := n2c s.lower (lowNibble b) :: n2c s.lower (highNibble b) :: (wrapNewline s ++ s.obufRev)
        lastNl := false
        lineBytes := lineNext s } := by
  have hn : (n2c s.lower (lowNibble b) == newline) = false := by simpa using n2c_ne_newline _ _
  unfold encStep countLine wrapLine wrapNewline lineNext
  by_cases hw : s.wrap = true <;> by_cases hl : s.lineBytes = s.pwrap <;>
    simp_all [State.wrap, State.lower, stage]

/-- The number of bytes on the line, 0 to `w`, one byte on. -/
theorem lineFill_succ {w m : Nat} (hw : 0 < w) :
    lineFill w (m + 1) = if lineFill w m = w then 1 else lineFill w m + 1 := by
  unfold lineFill
  rcases m with - | m
  · simp [hw.ne]
  · have hlt := Nat.mod_lt m hw
    have : (m + 1) % w = if m % w + 1 = w then 0 else m % w + 1 := by
      rw [Nat.add_mod]
      split
      · rename_i h
        by_cases h1 : w = 1
        · subst h1; omega
        · rw [Nat.mod_eq_of_lt (show 1 < w by omega), h, Nat.mod_self]
      · rename_i h
        by_cases h1 : w = 1
        · subst h1; omega
        · rw [Nat.mod_eq_of_lt (show 1 < w by omega), Nat.mod_eq_of_lt (by omega)]
    simp only [Nat.succ_ne_zero, if_false, Nat.add_sub_cancel, this]
    split <;> simp_all

theorem lineFill_le {w m : Nat} (hw : 0 < w) : lineFill w m ≤ w := by
  unfold lineFill
  split
  · omega
  · have := Nat.mod_lt (m - 1) hw
    omega

theorem lineFill_of_le {w m : Nat} (h : m ≤ w) : lineFill w m = m := by
  unfold lineFill
  split
  · omega
  · rw [Nat.mod_eq_of_lt (by omega)]
    omega

/-- The line is full exactly before the bytes whose offset is a positive multiple of the line length (R93). -/
theorem lineFill_eq_iff {w m : Nat} (hw : 0 < w) : lineFill w m = w ↔ 0 < m ∧ m % w = 0 := by
  unfold lineFill
  rcases m with - | m
  · simp; omega
  · have hlt := Nat.mod_lt m hw
    simp only [Nat.succ_ne_zero, if_false, Nat.add_sub_cancel, Nat.succ_pos, true_and]
    constructor
    · intro h
      rw [Nat.add_mod]
      by_cases h1 : w = 1
      · subst h1; omega
      · rw [Nat.mod_eq_of_lt (show 1 < w by omega), h, Nat.mod_self]
    · intro h
      have := Nat.div_add_mod m w
      have h2 := Nat.div_add_mod (m + 1) w
      rw [h] at h2
      by_contra hne
      have : m % w + 1 < w := by omega
      have h3 : (m + 1) % w = m % w + 1 := by
        rw [Nat.add_mod]
        by_cases h1 : w = 1
        · subst h1; omega
        · rw [Nat.mod_eq_of_lt (show 1 < w by omega), Nat.mod_eq_of_lt this]
      omega

/-- LINE_BYTES as a number of bytes on the line. -/
def lineAt (wrap : Bool) (w : Word) (lb : Word) (m : Nat) : Word :=
  if wrap then BitVec.ofNat 32 (lineFill w.toNat m) else lb

/-- The state after the bytes `bs` of a chunk in direction 0, the first of them at offset `m` (R91, R93, R111). -/
def encoded (s : State) (m : Nat) (bs : List Byte) : State :=
  { s with
    obufRev := (encodeFrom s.wrap s.lower s.pwrap.toNat m bs).reverse ++ s.obufRev
    lastNl := bs.isEmpty && s.lastNl
    lineBytes := lineAt s.wrap s.pwrap s.lineBytes (m + bs.length)
    inCount := s.inCount + BitVec.ofNat 64 bs.length }

/-- LINE_BYTES of `s` is that of a line after `m` bytes of a wrapped session. -/
def LineIs (s : State) (m : Nat) : Prop := s.wrap = true → s.lineBytes.toNat = lineFill s.pwrap.toNat m

theorem lineIs_encoded {s : State} (hw : 0 < s.pwrap.toNat) (m : Nat) (bs : List Byte) : LineIs (encoded s m bs) (m + bs.length) := by
  intro hwr
  have hwr : s.wrap = true := hwr
  have : lineFill s.pwrap.toNat (m + bs.length) < 2 ^ 32 := lt_of_le_of_lt (lineFill_le hw) s.pwrap.isLt
  simp only [encoded, lineAt, hwr, if_true, BitVec.toNat_ofNat]
  exact Nat.mod_eq_of_lt this

theorem lineAt_self {s : State} {m : Nat} (hm : LineIs s m) : lineAt s.wrap s.pwrap s.lineBytes m = s.lineBytes := by
  unfold lineAt
  split
  · rw [← hm ‹_›]
    simp
  · rfl

theorem encoded_nil {s : State} {m : Nat} (hm : LineIs s m) : encoded s m [] = s := by
  simp [encoded, lineAt_self hm]

theorem encoded_encoded (s : State) (m : Nat) (as bs : List Byte) :
    encoded (encoded s m as) (m + as.length) bs = encoded s m (as ++ bs) := by
  have h1 : (encoded s m as).wrap = s.wrap := rfl
  have h2 : (encoded s m as).lower = s.lower := rfl
  rw [encoded, h1, h2]
  simp only [encoded, encodeFrom_append, List.reverse_append, List.append_assoc, List.length_append, BitVec.ofNat_add,
    BitVec.add_assoc, ← Nat.add_assoc]
  congr 1
  · unfold lineAt
    split <;> rfl
  · cases as <;> cases bs <;> simp

/-- R91, R93, R94: one ENC_STEP and its count, from a line that holds `lineFill w m` bytes. -/
theorem countIn_encStep {s : State} {m : Nat} (b : Byte) (hw : 0 < s.pwrap.toNat) (hm : LineIs s m) :
    countIn (encStep b s) = encoded s m [b] := by
  have hfull : s.wrap = true → (s.lineBytes = s.pwrap ↔ lineFill s.pwrap.toNat m = s.pwrap.toNat) := by
    intro hwr
    rw [← hm hwr, BitVec.toNat_inj]
  have hnl : wrapNewline s = if s.wrap = true ∧ 0 < m ∧ m % s.pwrap.toNat = 0 then [newline] else [] := by
    unfold wrapNewline
    by_cases hwr : s.wrap = true
    · simp only [hwr, true_and, hfull hwr, lineFill_eq_iff hw]
    · simp [hwr]
  have hline : lineNext s = lineAt s.wrap s.pwrap s.lineBytes (m + 1) := by
    unfold lineNext lineAt
    by_cases hwr : s.wrap = true
    · simp only [hwr, if_true, lineFill_succ hw, hfull hwr]
      split
      · rfl
      · rw [← hm hwr]
        apply BitVec.eq_of_toNat_eq
        simp [BitVec.toNat_add]
    · simp [hwr]
  rw [encStep_eq, hnl, hline]
  simp only [countIn, encoded, encodeFrom, hexPair]
  congr 1
  split <;> simp

/-- R91, R93, R94, R111: the bytes of a chunk in direction 0 stage the text of the bytes at offset `m` and are counted; nothing is
raised and nothing else is written. -/
theorem feed_encoding (bs : List Byte) {s : State} {m : Nat} (hd : s.decoding = false) (hw : 0 < s.pwrap.toNat) (hm : LineIs s m) :
    feed bs s = .going (encoded s m bs) := by
  induction bs generalizing s m with
  | nil => rw [encoded_nil hm]; rfl
  | cons b bs ih =>
    have hstep : feed (b :: bs) s = feed bs (countIn (encStep b s)) := by
      simp [feed, pipeStep, hd]
    rw [hstep, countIn_encStep b hw hm, ih (s := encoded s m [b]) hd hw (lineIs_encoded hw m [b])]
    exact congrArg Run.going (encoded_encoded s m [b] bs)

end Sys2Proof.Machine
end

