-- ==== Sys2Proof/Laws/Frame.lean ====
section
/-! SUPPORT. The parts of CHUNK (R109 to R117): what each keeps, what its commit does, and when it runs. -/

namespace Sys2Proof.Machine

open Sys2Proof.Safety

/-! What staging keeps -/

/-- `t` differs from `s` at most in what a CHUNK's staging and an error write: the pipe registers, LAST_NL, IN_COUNT, OBUF, STATUS and the
error record. -/
structure Kept (s t : State) : Prop where
  cfg : t.cfg = s.cfg
  res : t.res = s.res
  outCount : t.outCount = s.outCount
  pchunk : t.pchunk = s.pchunk
  pwrap : t.pwrap = s.pwrap
  cmdIn : t.cmdIn = s.cmdIn
  dataIn : t.dataIn = s.dataIn
  sinkPlan : t.sinkPlan = s.sinkPlan
  sink : t.sink = s.sink
  responses : t.responses = s.responses

theorem Kept.refl (s : State) : Kept s s := ⟨rfl, rfl, rfl, rfl, rfl, rfl, rfl, rfl, rfl, rfl⟩

theorem Kept.trans {s t u : State} (h : Kept s t) (g : Kept t u) : Kept s u :=
  ⟨g.cfg.trans h.cfg, g.res.trans h.res, g.outCount.trans h.outCount, g.pchunk.trans h.pchunk, g.pwrap.trans h.pwrap,
    g.cmdIn.trans h.cmdIn, g.dataIn.trans h.dataIn, g.sinkPlan.trans h.sinkPlan, g.sink.trans h.sink,
    g.responses.trans h.responses⟩

theorem Kept.decoding {s t : State} (h : Kept s t) : t.decoding = s.decoding := by simp [State.decoding, h.cfg]

theorem kept_raiseError (kind : ErrKind) (off : Count) (ch : Byte) (s : State) : Kept s (raiseError kind off ch s) :=
  ⟨rfl, rfl, rfl, rfl, rfl, rfl, rfl, rfl, rfl, rfl⟩

theorem kept_stage (b : Byte) (s : State) : Kept s (stage b s) :=
  ⟨rfl, rfl, rfl, rfl, rfl, rfl, rfl, rfl, rfl, rfl⟩

theorem kept_countIn (s : State) : Kept s (countIn s) := ⟨rfl, rfl, rfl, rfl, rfl, rfl, rfl, rfl, rfl, rfl⟩

theorem kept_encStep (b : Byte) (s : State) : Kept s (encStep b s) := by
  rw [encStep_eq]
  exact ⟨rfl, rfl, rfl, rfl, rfl, rfl, rfl, rfl, rfl, rfl⟩

theorem kept_takeDigit (v : Nibble) (s : State) : Kept s (takeDigit v s) := by
  unfold takeDigit
  split <;> exact ⟨rfl, rfl, rfl, rfl, rfl, rfl, rfl, rfl, rfl, rfl⟩

theorem kept_decStep (c : Byte) (off : Count) (s : State) : Kept s (decStep c off s).state := by
  unfold decStep
  split
  · exact Kept.refl s
  · split
    · exact kept_raiseError _ _ _ s
    · exact kept_takeDigit _ s

theorem kept_pipeStep (c : Byte) (s : State) : Kept s (pipeStep c s).state := by
  unfold pipeStep
  split
  · exact kept_decStep _ _ s
  · exact kept_encStep _ s

theorem kept_feed (cs : List Byte) (s : State) : Kept s (feed cs s).state := by
  induction cs generalizing s with
  | nil => exact Kept.refl s
  | cons c cs ih =>
    have h := kept_pipeStep c s
    unfold feed
    split
    · rename_i t ht
      rw [ht] at h
      exact (h.trans (kept_countIn t)).trans (ih _)
    · rename_i t ht
      rw [ht] at h
      exact h

theorem kept_alignCheck (s : State) : Kept s (alignCheck s).state := by
  unfold alignCheck
  split
  · exact kept_raiseError _ _ _ s
  · exact Kept.refl s

theorem kept_chunkEndCheck (s : State) : Kept s (chunkEndCheck s).state := by
  unfold chunkEndCheck
  split
  · exact kept_alignCheck s
  · exact Kept.refl s

theorem kept_termNewline (s : State) : Kept s (termNewline s) := by
  unfold termNewline
  split
  · exact kept_stage _ s
  · exact Kept.refl s

theorem kept_finalizeStage (s : State) : Kept s (finalizeStage s).state := by
  unfold finalizeStage
  split
  · exact andThen_keeps (kept_alignCheck s) fun t _ h => h.trans (kept_termNewline t)
  · exact kept_stage _ s

/-- A CHUNK's staging keeps, of the session it works in with its data taken, all that `Kept` names. -/
theorem kept_stageChunk (l : BitVec 24) (s : State) :
    Kept (openIfIdle (takeData l.toNat s)) (stageChunk l s).state := by
  unfold stageChunk
  refine andThen_keeps (andThen_keeps (kept_feed _ _) fun t _ h => h.trans (kept_chunkEndCheck t)) fun t _ h => ?_
  split
  · exact h.trans (kept_finalizeStage t)
  · exact h

/-! Errors raised while staging -/

/-- A state in which an error has just been raised (R132). -/
def Latched (s : State) : Prop := s.status.state = .error ∧ s.status.err ≠ .none ∧ s.status.done = false ∧ s.obufRev = []

theorem latched_raiseError {kind : ErrKind} (off : Count) (ch : Byte) (s : State) (hk : kind ≠ .none) :
    Latched (raiseError kind off ch s) := ⟨rfl, hk, rfl, rfl⟩

theorem latched_of_alignCheck {s t : State} (h : alignCheck s = .raised t) : Latched t := by
  unfold alignCheck at h
  split at h
  · cases h
    exact latched_raiseError _ _ s (by decide)
  · cases h

theorem latched_of_pipeStep {c : Byte} {s t : State} (h : pipeStep c s = .raised t) : Latched t := by
  unfold pipeStep decStep at h
  split at h
  · split at h
    · cases h
    · split at h
      · cases h
        exact latched_raiseError _ _ s (by decide)
      · cases h
  · cases h

theorem latched_of_feed {cs : List Byte} {s t : State} (h : feed cs s = .raised t) : Latched t := by
  induction cs generalizing s with
  | nil => cases h
  | cons c cs ih =>
    unfold feed at h
    split at h
    · exact ih h
    · rename_i u hu
      cases h
      exact latched_of_pipeStep hu

theorem latched_of_stageChunk {l : BitVec 24} {s t : State} (h : stageChunk l s = .raised t) : Latched t := by
  unfold stageChunk at h
  cases hf : feed (s.dataIn.take l.toNat) (openIfIdle (takeData l.toNat s)) with
  | raised u =>
    rw [hf] at h
    cases h
    exact latched_of_feed hf
  | going u =>
    rw [hf, andThen_going] at h
    cases hc : chunkEndCheck u with
    | raised v =>
      rw [hc] at h
      cases h
      unfold chunkEndCheck at hc
      split at hc
      · exact latched_of_alignCheck hc
      · cases hc
    | going v =>
      rw [hc, andThen_going] at h
      split at h
      · unfold finalizeStage at h
        split at h
        · cases ha : alignCheck v with
          | raised w =>
            rw [ha] at h
            cases h
            exact latched_of_alignCheck ha
          | going w =>
            rw [ha] at h
            cases h
        · cases h
      · cases h

/-! The commit -/

@[simp] theorem obuf_length (s : State) : s.obuf.length = s.obufRev.length := by simp [State.obuf]

theorem acceptedCount_eq_planned (s : State) : acceptedCount s = planned s s.obuf.length := by
  unfold acceptedCount planned
  cases s.sinkPlan <;> simp

theorem acceptedCount_le (s : State) : acceptedCount s ≤ s.obuf.length := by
  unfold acceptedCount
  split <;> simp

/-- The state after a commit of which the sink accepted `k` bytes. -/
def delivered (k : Nat) (s : State) : State :=
  { s with
    sink := s.sink ++ s.obuf.take k
    outCount := s.outCount + BitVec.ofNat 64 k
    obufRev := []
    sinkPlan := planAfter s s.obuf.length }

theorem delivered_all (s : State) :
    delivered s.obuf.length s =
      { s with
        sink := s.sink ++ s.obuf
        outCount := s.outCount + BitVec.ofNat 64 s.obuf.length
        obufRev := []
        sinkPlan := planAfter s s.obuf.length } := by
  rw [delivered, List.take_length]

/-- R116: the sink accepts everything, or there is nothing to accept. -/
theorem commit_full {s : State} (h : planned s s.obuf.length = s.obuf.length) :
    commit s = .going (delivered s.obuf.length s) := by
  unfold commit
  by_cases h0 : s.obufRev = []
  · have : s.obuf = [] := obuf_eq_nil.2 h0
    cases s
    simp_all [delivered, planAfter]
  · rw [obuf_length] at h
    simp [h0, delivered, transfer, planAfter, acceptedCount_eq_planned, h]

/-- R116, R130: the sink accepts `k` bytes, fewer than it is offered. -/
theorem commit_short {s : State} (h : planned s s.obuf.length < s.obuf.length) :
    commit s = .raised (raiseError .ioFailure (s.outCount + BitVec.ofNat 64 (planned s s.obuf.length)) 0x01
      (delivered (planned s s.obuf.length) s)) := by
  have h0 : s.obufRev ≠ [] := by
    intro h0
    simp [h0] at h
  unfold commit
  rw [acceptedCount_eq_planned]
  rw [if_neg h0, if_pos (by simpa using h)]
  simp [delivered, transfer, planAfter, acceptedCount_eq_planned, h0]

theorem planned_le (s : State) (n : Nat) : planned s n ≤ n := by
  unfold planned
  split <;> simp

/-- R109: the end of a CHUNK whose commit the sink accepts in full. -/
theorem commitChunk_full {s : State} (eos : Bool) (h : planned s s.obuf.length = s.obuf.length) :
    commitChunk eos s = answered .accepted (BitVec.ofNat 32 s.obuf.length) (endChunk eos (delivered s.obuf.length s)) := by
  unfold commitChunk
  rw [commit_full h, acceptedCount_eq_planned, h]
  rfl

/-- R109, R132: the end of a CHUNK whose commit is short. -/
theorem commitChunk_short {s : State} (eos : Bool) (h : planned s s.obuf.length < s.obuf.length) :
    commitChunk eos s = answered .accepted (BitVec.ofNat 32 (planned s s.obuf.length))
      (raiseError .ioFailure (s.outCount + BitVec.ofNat 64 (planned s s.obuf.length)) 0x01
        (delivered (planned s s.obuf.length) s)) := by
  unfold commitChunk
  rw [commit_short h, acceptedCount_eq_planned]
  rfl

/-! When a CHUNK runs -/

theorem permitted_chunk {l : BitVec 24} {st : SessionState} : permitted (.chunk l) st = true ↔ st ≠ .error := by
  cases st <;> simp [permitted]

/-- R109, R120, R148: a CHUNK that is legal, permitted and has its data runs. -/
theorem exec_chunk_runs {l : BitVec 24} {s : State} (hl : l.toNat ≤ s.pchunk.toNat) (hs : s.status.state ≠ .error)
    (hd : l.toNat ≤ s.dataIn.length) : exec (.chunk l) s = .next (runChunk l s) := by
  have h1 : fieldsLegal (.chunk l) s = true := by simpa [fieldsLegal] using hl
  show execChunk l s = _
  rw [execChunk, afterChecks_of_permitted h1 (permitted_chunk.2 hs)]
  simp [dataShort, Nat.not_lt.2 hd]

/-- What a CHUNK that answers has done: been refused, or run. -/
theorem exec_chunk_next {l : BitVec 24} {s t : State} (h : exec (.chunk l) s = .next t) :
    t = answered .rejIllegal 0 s ∨ t = answered .rejState 0 s ∨
      (l.toNat ≤ s.pchunk.toNat ∧ s.status.state ≠ .error ∧ l.toNat ≤ s.dataIn.length ∧ t = runChunk l s) := by
  have h : execChunk l s = .next t := h
  rcases afterChecks_next h with h | h | ⟨h1, h2, h3⟩
  · exact .inl h
  · exact .inr (.inl h)
  · refine .inr (.inr ⟨by simpa [fieldsLegal] using h1, permitted_chunk.1 h2, ?_⟩)
    by_cases hn : s.dataIn.length < l.toNat
    · simp [dataShort, hn] at h3
    · simp only [dataShort, hn, decide_false, Bool.false_eq_true, if_false, Host.Outcome.next.injEq] at h3
      exact ⟨Nat.not_lt.1 hn, h3.symm⟩

end Sys2Proof.Machine
end

