-- ==== Sys2Proof/Laws/Chunk.lean ====
section
/-! SUPPORT. A CHUNK in closed form (R109 to R116): what it stages in each direction, from the pure functions of Safety. -/

namespace Sys2Proof.Machine

open Sys2Proof.Safety

/-! The session a CHUNK works in -/

/-- The session of a CHUNK (R110), with the CHUNK's `n` bytes taken from the port. -/
def session (n : Nat) (s : State) : State := { sessionOf s with dataIn := s.dataIn.drop n }

theorem openIfIdle_takeData {s : State} (n : Nat) (h : s.obufRev = []) : openIfIdle (takeData n s) = session n s := by
  unfold openIfIdle session sessionOf
  simp only [takeData_status]
  split
  · simp [*, sessionOpen, takeData]
  · simp [*, takeData]

@[simp] theorem sessionOf_pchunk (s : State) : (sessionOf s).pchunk = s.pchunk := by unfold sessionOf; split <;> rfl

@[simp] theorem sessionOf_pwrap (s : State) : (sessionOf s).pwrap = s.pwrap := by unfold sessionOf; split <;> rfl

@[simp] theorem sessionOf_sink (s : State) : (sessionOf s).sink = s.sink := by unfold sessionOf; split <;> rfl

@[simp] theorem sessionOf_sinkPlan (s : State) : (sessionOf s).sinkPlan = s.sinkPlan := by unfold sessionOf; split <;> rfl

@[simp] theorem sessionOf_obufRev (s : State) : (sessionOf s).obufRev = s.obufRev := by unfold sessionOf; split <;> rfl

@[simp] theorem sessionOf_cfg (s : State) : (sessionOf s).cfg = s.cfg := by unfold sessionOf; split <;> rfl

@[simp] theorem session_cfg (n : Nat) (s : State) : (session n s).cfg = s.cfg := sessionOf_cfg s

@[simp] theorem session_pchunk (n : Nat) (s : State) : (session n s).pchunk = s.pchunk := sessionOf_pchunk s

@[simp] theorem session_pwrap (n : Nat) (s : State) : (session n s).pwrap = s.pwrap := sessionOf_pwrap s

@[simp] theorem session_wrap (n : Nat) (s : State) : (session n s).wrap = s.wrap := by simp [State.wrap]

@[simp] theorem session_lower (n : Nat) (s : State) : (session n s).lower = s.lower := by simp [State.lower]

@[simp] theorem session_strict (n : Nat) (s : State) : (session n s).strict = s.strict := by simp [State.strict]

@[simp] theorem session_mixed (n : Nat) (s : State) : (session n s).mixed = s.mixed := by simp [State.mixed]

@[simp] theorem session_decoding (n : Nat) (s : State) : (session n s).decoding = s.decoding := by simp [State.decoding]

@[simp] theorem session_term (n : Nat) (s : State) : (session n s).term = s.term := by simp [State.term]

@[simp] theorem session_chunkScope (n : Nat) (s : State) : (session n s).chunkScope = s.chunkScope := by simp [State.chunkScope]

/-- R30, R31, R110: outside ERROR the session has no error and is not done. -/
theorem sessionOf_status {s : State} (hi : Invariants s) (he : s.status.state ≠ .error) :
    (sessionOf s).status = ⟨s.status.state, .none, false⟩ := by
  have h1 : s.status.err = .none := by
    by_contra h
    exact he (hi.errIffError.1 h)
  have h2 : s.status.state = .active → s.status.done = false := by
    intro h
    by_contra hd
    have := hi.doneIdle (by simpa using hd)
    rw [h] at this
    cases this
  unfold sessionOf
  generalize hst : s.status = st at *
  obtain ⟨a, b, c⟩ := st
  cases a <;> simp_all

theorem sessionOf_lineBytes_le {s : State} (hi : Invariants s) : (sessionOf s).lineBytes.toNat ≤ s.pwrap.toNat := by
  unfold sessionOf
  split
  · simp
  · exact hi.lineBound

theorem sessionOf_pendClear {s : State} (hi : Invariants s) : PendClear (sessionOf s) := by
  unfold sessionOf
  split
  · simp [PendClear]
  · exact hi.pendClear

/-! Direction 0 -/

/-- What an encoding CHUNK stages (R91, R95, R114). -/
def encodedOutput (l : BitVec 24) (s : State) : List Byte :=
  encodeFrom s.wrap s.lower s.pwrap.toNat (sessionOf s).lineBytes.toNat (s.dataIn.take l.toNat) ++
    (if l.toNat < s.pchunk.toNat then [newline] else [])

/-- The state in which an encoding CHUNK commits. -/
def encodedChunk (l : BitVec 24) (s : State) : State :=
  { sessionOf s with
    obufRev := (encodedOutput l s).reverse
    lastNl := decide (l.toNat < s.pchunk.toNat)
    lineBytes := lineAt s.wrap s.pwrap (sessionOf s).lineBytes ((sessionOf s).lineBytes.toNat + l.toNat)
    inCount := (sessionOf s).inCount + BitVec.ofNat 64 l.toNat
    dataIn := s.dataIn.drop l.toNat }

@[simp] theorem encodedChunk_obuf (l : BitVec 24) (s : State) : (encodedChunk l s).obuf = encodedOutput l s := by
  simp [encodedChunk, State.obuf]

/-- Every encoding CHUNK stages something: a byte, or the end-of-stream newline. -/
theorem encodedOutput_ne_nil {l : BitVec 24} {s : State} (hi : Invariants s) (hn : l.toNat ≤ s.dataIn.length) :
    encodedOutput l s ≠ [] := by
  intro h
  obtain ⟨h1, h2⟩ := List.append_eq_nil_iff.1 h
  by_cases hs : l.toNat < s.pchunk.toNat
  · simp [hs] at h2
  · refine encodeFrom_ne_nil _ _ _ _ (fun h3 => ?_) h1
    have h4 := congrArg List.length h3
    have := hi.chunkMax.1
    rw [List.length_take, List.length_nil] at h4
    omega

/-- R109 to R114 in direction 0: staging raises nothing and ends in `encodedChunk`. -/
theorem stageChunk_encoding {l : BitVec 24} {s : State} (hi : Invariants s) (hd : s.decoding = false)
    (hn : l.toNat ≤ s.dataIn.length) : stageChunk l s = .going (encodedChunk l s) := by
  have hob : s.obufRev = [] := obuf_eq_nil.1 hi.obufEmpty
  have hlen : (s.dataIn.take l.toNat).length = l.toNat := by simp [hn]
  have hline : LineIs (session l.toNat s) (sessionOf s).lineBytes.toNat := by
    intro _
    show (sessionOf s).lineBytes.toNat = lineFill (session l.toNat s).pwrap.toNat _
    rw [session_pwrap, lineFill_of_le (sessionOf_lineBytes_le hi)]
  have hfeed := feed_encoding (s.dataIn.take l.toNat) (s := session l.toNat s) (by rw [session_decoding, hd])
    (by rw [session_pwrap]; exact hi.wrapBytes) hline
  have hdir : (encoded (session l.toNat s) (sessionOf s).lineBytes.toNat (s.dataIn.take l.toNat)).decoding = false := by
    rw [← hd, ← session_decoding l.toNat s]
    rfl
  have hpc : (encoded (session l.toNat s) (sessionOf s).lineBytes.toNat (s.dataIn.take l.toNat)).pchunk = s.pchunk :=
    sessionOf_pchunk s
  unfold stageChunk
  rw [openIfIdle_takeData _ hob, hfeed]
  simp only [andThen_going, chunkEndCheck, hdir, Bool.false_and, Bool.false_eq_true, if_false, endsStream, hpc, finalizeStage]
  by_cases h : l.toNat < s.pchunk.toNat
  · simp [h, encEos, stage, encoded, encodedChunk, encodedOutput, session, hlen, hob]
    simp [State.wrap, State.lower]
  · have h0 : (s.dataIn.take l.toNat).isEmpty = false := by
      have := hi.chunkMax.1
      rw [List.isEmpty_eq_false_iff]
      intro h1
      rw [h1, List.length_nil] at hlen
      omega
    simp only [h, decide_false, Bool.false_eq_true, if_false, encoded, session_wrap, session_lower, hlen, h0, encodedChunk,
      encodedOutput, List.append_nil]
    simp [session, hob]

/-! Direction 1 -/

/-- What a decoding CHUNK stages whose characters complete the bytes `bs` (R99, R115). -/
def decodedOutput (l : BitVec 24) (s : State) (bs : List Byte) : List Byte :=
  bs ++ (if l.toNat < s.pchunk.toNat then terminalNewline s.term (lastNlAfter (sessionOf s).lastNl bs) else [])

/-- The state in which a decoding CHUNK commits. -/
def decodedChunk (l : BitVec 24) (s : State) (bs : List Byte) (q : Option Nibble) : State :=
  { sessionOf s with
    obufRev := (decodedOutput l s bs).reverse
    lastNl := lastNlAfter (sessionOf s).lastNl (decodedOutput l s bs)
    pendValid := q.isSome
    pendNib := q.getD 0
    inCount := (sessionOf s).inCount + BitVec.ofNat 64 l.toNat
    dataIn := s.dataIn.drop l.toNat }

@[simp] theorem decodedChunk_obuf (l : BitVec 24) (s : State) (bs : List Byte) (q : Option Nibble) :
    (decodedChunk l s bs q).obuf = decodedOutput l s bs := by
  simp [decodedChunk, State.obuf]

@[simp] theorem decoded_decoding (s : State) (n : Nat) (bs : List Byte) (q : Option Nibble) :
    (decoded s n bs q).decoding = s.decoding := rfl

@[simp] theorem decoded_chunkScope (s : State) (n : Nat) (bs : List Byte) (q : Option Nibble) :
    (decoded s n bs q).chunkScope = s.chunkScope := rfl

@[simp] theorem decoded_term (s : State) (n : Nat) (bs : List Byte) (q : Option Nibble) : (decoded s n bs q).term = s.term := rfl

@[simp] theorem decoded_pchunk (s : State) (n : Nat) (bs : List Byte) (q : Option Nibble) :
    (decoded s n bs q).pchunk = s.pchunk := rfl

/-- The loop of a decoding CHUNK whose characters decode (R99, R111). -/
theorem feed_session_ok {l : BitVec 24} {s : State} {bs : List Byte} {q : Option Nibble} (hi : Invariants s) (hd : s.decoding = true)
    (hn : l.toNat ≤ s.dataIn.length)
    (h : decodeFrom s.strict s.lower s.mixed (pendOf (sessionOf s)) 0 (s.dataIn.take l.toNat) = .ok (bs, q)) :
    feed (s.dataIn.take l.toNat) (session l.toNat s) = .going (decoded (session l.toNat s) l.toNat bs q) := by
  have hlen : (s.dataIn.take l.toNat).length = l.toNat := by simp [hn]
  have h : decodeFrom (session l.toNat s).strict (session l.toNat s).lower (session l.toNat s).mixed (pendOf (session l.toNat s)) 0
      (s.dataIn.take l.toNat) = .ok (bs, q) := by
    rw [session_strict, session_lower, session_mixed]
    exact h
  have := feed_decoding_ok (s := session l.toNat s) _ (by rw [session_decoding, hd]) (sessionOf_pendClear hi) h
  rwa [hlen] at this

/-- R103: the alignment check after characters that left a nibble pending, or none. -/
theorem alignCheck_decoded (s : State) (n : Nat) (bs : List Byte) (q : Option Nibble) :
    alignCheck (decoded s n bs q) =
      if q.isSome then .raised (raiseError .invalidAlignment (s.inCount + BitVec.ofNat 64 n) 0x00 (decoded s n bs q))
      else .going (decoded s n bs q) := rfl

/-- R109 to R115 in direction 1 with no error: staging ends in `decodedChunk`. -/
theorem stageChunk_decoding {l : BitVec 24} {s : State} {bs : List Byte} {q : Option Nibble} (hi : Invariants s)
    (hd : s.decoding = true) (hn : l.toNat ≤ s.dataIn.length)
    (h : decodeFrom s.strict s.lower s.mixed (pendOf (sessionOf s)) 0 (s.dataIn.take l.toNat) = .ok (bs, q))
    (hq : l.toNat < s.pchunk.toNat ∨ s.chunkScope = true → q = none) :
    stageChunk l s = .going (decodedChunk l s bs q) := by
  have hob : s.obufRev = [] := obuf_eq_nil.1 hi.obufEmpty
  have hcheck : chunkEndCheck (decoded (session l.toNat s) l.toNat bs q) = .going (decoded (session l.toNat s) l.toNat bs q) := by
    by_cases hc : s.chunkScope = true
    · simp [chunkEndCheck, alignCheck_decoded, hq (.inr hc)]
    · simp [chunkEndCheck, hc]
  unfold stageChunk
  rw [openIfIdle_takeData _ hob, feed_session_ok hi hd hn h, andThen_going, hcheck, andThen_going]
  by_cases hs : l.toNat < s.pchunk.toNat
  · obtain rfl := hq (.inl hs)
    simp only [endsStream, decoded_pchunk, session_pchunk, hs, decide_true, if_true, finalizeStage, decoded_decoding,
      session_decoding, hd, alignCheck_decoded, Option.isSome_none, Bool.false_eq_true, if_false, andThen_going, termNewline,
      decoded_term, session_term]
    have hnl : (decoded (session l.toNat s) l.toNat bs none).lastNl = lastNlAfter (sessionOf s).lastNl bs := rfl
    rw [hnl]
    unfold decodedChunk decodedOutput terminalNewline
    simp only [hs, if_true]
    split
    · simp [lastNlAfter_append, stage, decoded, session, hob, lastNlAfter_cons]
    · simp [decoded, session, hob]
  · simp [endsStream, hs, decodedChunk, decodedOutput, decoded, session, hob]

/-- R128, R132 in direction 1: staging stops at the first character that is neither a digit nor a skipped newline. -/
theorem stageChunk_invalidDigit {l : BitVec 24} {s : State} {i : Nat} {c : Byte} (hi : Invariants s) (hd : s.decoding = true)
    (h : decodeFrom s.strict s.lower s.mixed (pendOf (sessionOf s)) 0 (s.dataIn.take l.toNat) = .error (i, c)) :
    ∃ bs q, decodeFrom s.strict s.lower s.mixed (pendOf (sessionOf s)) 0 (s.dataIn.take i) = .ok (bs, q) ∧ s.dataIn[i]? = some c ∧
      stageChunk l s = .raised (raiseError .invalidDigit ((sessionOf s).inCount + BitVec.ofNat 64 i) c
        (decoded (session l.toNat s) i bs q)) := by
  have hob : s.obufRev = [] := obuf_eq_nil.1 hi.obufEmpty
  have h' : decodeFrom (session l.toNat s).strict (session l.toNat s).lower (session l.toNat s).mixed
      (pendOf (session l.toNat s)) 0 (s.dataIn.take l.toNat) = .error (i, c) := by
    rw [session_strict, session_lower, session_mixed]
    exact h
  obtain ⟨j, bs, q, h0, hc, hpre, hf⟩ :=
    feed_decoding_error (s := session l.toNat s) _ (by rw [session_decoding, hd]) (sessionOf_pendClear hi) h'
  obtain rfl : i = j := by omega
  have hil : i < l.toNat := by
    have := (List.getElem?_eq_some_iff.1 hc).1
    rw [List.length_take] at this
    omega
  rw [session_strict, session_lower, session_mixed, List.take_take, min_eq_left hil.le] at hpre
  rw [List.getElem?_take_of_lt hil] at hc
  refine ⟨bs, q, hpre, hc, ?_⟩
  unfold stageChunk
  rw [openIfIdle_takeData _ hob, hf]
  rfl

/-- R129, R132 in direction 1: staging stops at the alignment check. -/
theorem stageChunk_invalidAlignment {l : BitVec 24} {s : State} {bs : List Byte} {h : Nibble} (hi : Invariants s)
    (hd : s.decoding = true) (hn : l.toNat ≤ s.dataIn.length)
    (hdec : decodeFrom s.strict s.lower s.mixed (pendOf (sessionOf s)) 0 (s.dataIn.take l.toNat) = .ok (bs, some h))
    (hs : l.toNat < s.pchunk.toNat ∨ s.chunkScope = true) :
    stageChunk l s = .raised (raiseError .invalidAlignment ((sessionOf s).inCount + BitVec.ofNat 64 l.toNat) 0x00
      (decoded (session l.toNat s) l.toNat bs (some h))) := by
  have hob : s.obufRev = [] := obuf_eq_nil.1 hi.obufEmpty
  have hcount : (session l.toNat s).inCount = (sessionOf s).inCount := rfl
  unfold stageChunk
  rw [openIfIdle_takeData _ hob, feed_session_ok hi hd hn hdec, andThen_going]
  by_cases hc : s.chunkScope = true
  · simp [chunkEndCheck, hd, hc, alignCheck_decoded, hcount]
  · have hs : l.toNat < s.pchunk.toNat := hs.resolve_right hc
    simp [chunkEndCheck, hd, hc, alignCheck_decoded, endsStream, hs, finalizeStage, hcount]

/-! Both directions -/

/-- The three ways the staging of a CHUNK that has its data ends. -/
theorem stageChunk_cases {l : BitVec 24} {s : State} (hi : Invariants s) (hn : l.toNat ≤ s.dataIn.length) :
    (s.decoding = false ∧ stageChunk l s = .going (encodedChunk l s)) ∨
    (s.decoding = true ∧ ∃ bs q,
      decodeFrom s.strict s.lower s.mixed (pendOf (sessionOf s)) 0 (s.dataIn.take l.toNat) = .ok (bs, q) ∧
      (l.toNat < s.pchunk.toNat ∨ s.chunkScope = true → q = none) ∧ stageChunk l s = .going (decodedChunk l s bs q)) ∨
    (s.decoding = true ∧ ∃ kind off ch i bs q, kind ≠ .none ∧ kind ≠ .ioFailure ∧
      stageChunk l s = .raised (raiseError kind off ch (decoded (session l.toNat s) i bs q))) := by
  cases hd : s.decoding
  · exact .inl ⟨rfl, stageChunk_encoding hi hd hn⟩
  · cases hdec : decodeFrom s.strict s.lower s.mixed (pendOf (sessionOf s)) 0 (s.dataIn.take l.toNat) with
    | error e =>
      obtain ⟨i, c⟩ := e
      obtain ⟨bs, q, -, -, h⟩ := stageChunk_invalidDigit hi hd hdec
      exact .inr (.inr ⟨rfl, _, _, _, _, _, _, by decide, by decide, h⟩)
    | ok r =>
      obtain ⟨bs, q⟩ := r
      by_cases hq : l.toNat < s.pchunk.toNat ∨ s.chunkScope = true → q = none
      · exact .inr (.inl ⟨rfl, bs, q, rfl, hq, stageChunk_decoding hi hd hn hdec hq⟩)
      · obtain ⟨hs, hq⟩ := Classical.not_imp.1 hq
        obtain ⟨h, rfl⟩ := Option.ne_none_iff_exists'.1 hq
        exact .inr (.inr ⟨rfl, _, _, _, _, _, _, by decide, by decide, stageChunk_invalidAlignment hi hd hn hdec hs⟩)

/-- R12, R60 in direction 0. -/
theorem encodedOutput_length_lt {l : BitVec 24} {s : State} (hi : Invariants s) (hn : l.toNat ≤ s.dataIn.length)
    (hl : l.toNat ≤ s.pchunk.toNat) : (encodedOutput l s).length < obufCap s := by
  have h1 := encodeFrom_length_le s.wrap s.lower (w := s.pwrap.toNat) hi.wrapBytes (sessionOf s).lineBytes.toNat
    (s.dataIn.take l.toNat)
  rw [List.length_take_of_le hn] at h1
  have h2 : (l.toNat + s.pwrap.toNat - 1) / s.pwrap.toNat ≤ (s.pchunk.toNat + s.pwrap.toNat - 1) / s.pwrap.toNat :=
    Nat.div_le_div_right (by omega)
  unfold encodedOutput obufCap
  rw [List.length_append]
  split <;> simp <;> omega

/-- R12, R60 in direction 1. -/
theorem decodedOutput_length_lt {l : BitVec 24} {s : State} {bs : List Byte} {q : Option Nibble} (hi : Invariants s)
    (hl : l.toNat ≤ s.pchunk.toNat)
    (h : decodeFrom s.strict s.lower s.mixed (pendOf (sessionOf s)) 0 (s.dataIn.take l.toNat) = .ok (bs, q)) :
    (decodedOutput l s bs).length < obufCap s := by
  have h1 := decodeFrom_length_le h
  have h2 : (s.dataIn.take l.toNat).length ≤ l.toNat := by simp
  have h3 := hi.chunkMax.1
  have h4 : ∀ a b, (terminalNewline a b).length ≤ 1 := by
    intro a b
    unfold terminalNewline
    split <;> simp
  have h5 := h4 s.term (lastNlAfter (sessionOf s).lastNl bs)
  unfold decodedOutput obufCap
  rw [List.length_append]
  generalize (s.pchunk.toNat + s.pwrap.toNat - 1) / s.pwrap.toNat = f
  split at h1 <;> split <;> simp <;> omega

/-! What every CHUNK that runs does, whatever it stages -/

/-- What holds with a new session and without one holds after `openIfIdle`. -/
theorem openIfIdle_cases (P : State → Prop) {s : State} (h1 : P (sessionOpen s)) (h2 : P s) : P (openIfIdle s) := by
  unfold openIfIdle
  split <;> assumption

/-- R109, R111, R116: exactly L bytes leave the port, OBUF ends empty, SINK only grows, one ACCEPTED response, and CFG, RES, the
parameters and the command stream are unchanged. -/
theorem runChunk_answers (l : BitVec 24) (s : State) :
    ∃ rdata u, runChunk l s = answered .accepted rdata u ∧ u.responses = s.responses ∧ u.dataIn = s.dataIn.drop l.toNat ∧
      u.obuf = [] ∧ (∃ d, u.sink = s.sink ++ d) ∧ u.cfg = s.cfg ∧ u.res = s.res ∧ u.pchunk = s.pchunk ∧ u.pwrap = s.pwrap ∧
      u.cmdIn = s.cmdIn := by
  have h0 : ∀ t, Kept (openIfIdle (takeData l.toNat s)) t →
      t.responses = s.responses ∧ t.dataIn = s.dataIn.drop l.toNat ∧ t.sink = s.sink ∧ t.cfg = s.cfg ∧ t.res = s.res ∧
        t.pchunk = s.pchunk ∧ t.pwrap = s.pwrap ∧ t.cmdIn = s.cmdIn := by
    intro t hk
    rw [hk.responses, hk.dataIn, hk.sink, hk.cfg, hk.res, hk.pchunk, hk.pwrap, hk.cmdIn]
    apply openIfIdle_cases (fun u => u.responses = s.responses ∧ u.dataIn = s.dataIn.drop l.toNat ∧ u.sink = s.sink ∧
      u.cfg = s.cfg ∧ u.res = s.res ∧ u.pchunk = s.pchunk ∧ u.pwrap = s.pwrap ∧ u.cmdIn = s.cmdIn) <;>
      exact ⟨rfl, rfl, rfl, rfl, rfl, rfl, rfl, rfl⟩
  have hk := kept_stageChunk l s
  unfold runChunk
  cases hst : stageChunk l s with
  | raised t =>
    rw [hst] at hk
    obtain ⟨h1, h2, h3, h4⟩ := h0 t hk
    exact ⟨0, t, rfl, h1, h2, obuf_eq_nil.2 (latched_of_stageChunk hst).2.2.2, ⟨[], by simp [h3]⟩, h4⟩
  | going t =>
    rw [hst] at hk
    obtain ⟨h1, h2, h3, h4⟩ := h0 t hk
    simp only []
    rcases (planned_le t t.obuf.length).lt_or_eq with h | h
    · rw [commitChunk_short _ h]
      exact ⟨_, _, rfl, h1, h2, rfl, ⟨_, congrArg (· ++ _) h3⟩, h4⟩
    · rw [commitChunk_full _ h]
      refine ⟨_, _, rfl, ?_⟩
      unfold endChunk
      split <;> exact ⟨h1, h2, rfl, ⟨_, congrArg (· ++ _) h3⟩, h4⟩

end Sys2Proof.Machine
end

