-- ==== Sys2Proof/Laws/Decode.lean ====
section
/-! SUPPORT. The decoder and the encoder in arithmetic (R67, R68, R71): the opcode, the masks and the words as numbers. -/

namespace Sys2Proof

/-- OP is the number above bit 28. -/
theorem opField_eq (w : Word) : opField w = w.toNat / 2 ^ 28 := by
  have := w.isLt
  simp only [opField, BitVec.extractLsb'_toNat, Nat.shiftRight_eq_div_pow]
  omega

/-- A mask of the bits from `k` up keeps the multiple of 2^k below. -/
theorem and_highMask_toNat (w : Word) (k : Nat) : (w &&& (BitVec.allOnes 32 <<< k)).toNat = w.toNat / 2 ^ k * 2 ^ k := by
  have h : w &&& (BitVec.allOnes 32 <<< k) = (w >>> k) <<< k := by
    ext i hi
    have hones : (BitVec.allOnes 32).getLsbD (i - k) = true := by
      rw [BitVec.getLsbD_allOnes]
      simp
      omega
    by_cases hk : i < k
    · simp [hk]
    · rw [← BitVec.getLsbD_eq_getElem, ← BitVec.getLsbD_eq_getElem, BitVec.getLsbD_and, BitVec.getLsbD_shiftLeft,
        BitVec.getLsbD_shiftLeft, hones, BitVec.getLsbD_ushiftRight]
      simp [hk, hi, show k + (i - k) = i by omega]
  rw [h, BitVec.toNat_shiftLeft, BitVec.toNat_ushiftRight, Nat.shiftRight_eq_div_pow, Nat.shiftLeft_eq]
  exact Nat.mod_eq_of_lt (lt_of_le_of_lt (Nat.div_mul_le_self _ _) w.isLt)

/-- A row's test (R71) when its mask is the bits from `k` up: the word and the row's code agree above bit `k`. -/
theorem and_highMask_eq_iff {w m c : Word} (k : Nat) (hm : m = BitVec.allOnes 32 <<< k) :
    w &&& m = c ↔ w.toNat / 2 ^ k * 2 ^ k = c.toNat := by
  rw [← and_highMask_toNat, ← hm, BitVec.toNat_inj]

/-- How many low bits of a word the mask of its opcode leaves to the operand (R71). -/
def operandBits : Nat → Nat
  | 0 => 0
  | 1 => 7
  | 2 => 4
  | 3 => 8
  | 4 => 24
  | 5 => 0
  | 6 => 1
  | 7 => 8
  | _ => 0

/-- Every mask of the opcode map is the bits above the operand, and every code has the opcode in 31:28 and zeros below (R71). -/
theorem rowOf_form {op : Nat} {row : Row} (h : rowOf op = some row) :
    row.mask = BitVec.allOnes 32 <<< operandBits op ∧ row.code.toNat = op * 2 ^ 28 ∧ op < 8 := by
  have hlt : op < 8 := by
    by_contra hge
    have : rowOf op = none := by
      rw [rowOf]
      all_goals omega
    simp [this] at h
  refine ⟨?_, ?_, hlt⟩ <;> interval_cases op <;> cases h <;> decide

theorem rowOf_isSome {op : Nat} (h : op < 8) : ∃ row, rowOf op = some row := by
  interval_cases op <;> exact ⟨_, rfl⟩

theorem operandsOf_isSome {op : Nat} (w : Word) (h : op < 8) : ∃ i, operandsOf op w = some i := by
  interval_cases op <;> exact ⟨_, rfl⟩

theorem rowOf_none {op : Nat} (h : 8 ≤ op) : rowOf op = none := by
  rw [rowOf]
  all_goals omega

/-- The decoder (R75): a word below opcode 8 decodes to its opcode's command exactly when the bits between opcode and operand are 0. -/
theorem decode_of_low {w : Word} (h : w.toNat / 2 ^ 28 < 8) :
    ∃ i, operandsOf (w.toNat / 2 ^ 28) w = some i ∧
      decode w = if w.toNat % 2 ^ 28 < 2 ^ operandBits (w.toNat / 2 ^ 28) then .ok i else .error .reservedBits := by
  obtain ⟨row, hr⟩ := rowOf_isSome h
  obtain ⟨i, hi⟩ := operandsOf_isSome w h
  obtain ⟨hm, hc, -⟩ := rowOf_form hr
  have key : w &&& row.mask = row.code ↔ w.toNat % 2 ^ 28 < 2 ^ operandBits (w.toNat / 2 ^ 28) := by
    rw [and_highMask_eq_iff _ hm, hc]
    have := w.isLt
    generalize hop : w.toNat / 2 ^ 28 = op at *
    interval_cases op <;> simp only [operandBits] <;> omega
  refine ⟨i, hi, ?_⟩
  unfold decode
  rw [opField_eq, hr, hi]
  simp only [key]

/-- The decoder (R73): a reserved opcode. -/
theorem decode_of_high {w : Word} (h : 8 ≤ w.toNat / 2 ^ 28) : decode w = .error .reservedOpcode := by
  unfold decode
  rw [opField_eq, rowOf_none h]

/-! The words as numbers (R68) -/

theorem encode_cfg_toNat (v : BitVec 7) : (encode (.cfg v)).toNat = 1 * 2 ^ 28 + v.toNat := by
  revert v; decide

theorem encode_lutN2c_toNat (n : Nibble) : (encode (.lutN2c n)).toNat = 2 * 2 ^ 28 + n.toNat := by
  revert n; decide

theorem encode_lutC2n_toNat (ch : Byte) : (encode (.lutC2n ch)).toNat = 3 * 2 ^ 28 + ch.toNat := by
  revert ch; decide

theorem encode_chunk_toNat (l : BitVec 24) : (encode (.chunk l)).toNat = 4 * 2 ^ 28 + l.toNat := by
  have h := l.isLt
  simp only [encode, BitVec.toNat_append, Nat.shiftLeft_eq]
  have : (4#4).toNat * 2 ^ 4 ||| (0#4).toNat = 64 := by decide
  rw [this, Nat.mul_comm, ← Nat.two_pow_add_eq_or_of_lt h]
  omega

theorem encode_rdreg_toNat (idx : Byte) : (encode (.rdreg idx)).toNat = 7 * 2 ^ 28 + idx.toNat := by
  revert idx; decide

end Sys2Proof
end

