-- ==== Sys2Proof/Laws/Exec.lean ====
section
/-! SUPPORT. Every command as `afterChecks` of its own effect (R75, R120), so that a statement over all commands needs the checks once. -/

namespace Sys2Proof.Machine

open Sys2Proof.Safety

/-- The effect of each command once it is legal and permitted. -/
def effect : Instr → State → Host.Outcome State Fault Refusal
  | .nop, s => .next (accept 0 s)
  | .cfg v, s => .next (accept 0 { s with cfg := v.setWidth 32 })
  | .lutN2c n, s => .next (answerRes (resFound (n2c s.lower n)) s)
  | .lutC2n ch, s => .next (answerRes (c2nResult s ch) s)
  | .chunk l, s => if dataShort l s then .fault .chunkDataAwaited else .next (runChunk l s)
  | .abort, s => .next (accept 0 (abortSession s))
  | .ioerr k, s => .next (accept 0 (raiseIo k s))
  | .rdreg idx, s =>
    match regOfIndex idx with
    | some r => .next (accept (readReg r s) s)
    | none => .next (rejectIllegal s)

theorem exec_eq_afterChecks (i : Instr) (s : State) : exec i s = afterChecks i s (effect i) := by
  cases i <;> rfl

/-- R74: an illegal field value. -/
theorem exec_of_illegal {i : Instr} {s : State} (h : fieldsLegal i s = false) : exec i s = .next (answered .rejIllegal 0 s) := by
  rw [exec_eq_afterChecks, afterChecks_of_illegal h]

/-- R120: a command the state does not permit. -/
theorem exec_of_not_permitted {i : Instr} {s : State} (hl : fieldsLegal i s = true) (hp : permitted i s.status.state = false) :
    exec i s = .next (answered .rejState 0 s) := by
  rw [exec_eq_afterChecks, afterChecks_of_not_permitted hl hp]

/-- A command that is legal and permitted has its effect. -/
theorem exec_of_permitted {i : Instr} {s : State} (hl : fieldsLegal i s = true) (hp : permitted i s.status.state = true) :
    exec i s = effect i s := by
  rw [exec_eq_afterChecks, afterChecks_of_permitted hl hp]

/-- A command that answers has been refused or had its effect. -/
theorem exec_next {i : Instr} {s t : State} (h : exec i s = .next t) :
    t = answered .rejIllegal 0 s ∨ t = answered .rejState 0 s ∨
      (fieldsLegal i s = true ∧ permitted i s.status.state = true ∧ effect i s = .next t) := by
  rw [exec_eq_afterChecks] at h
  exact afterChecks_next h

/-- A legal index names a register (R47, R74). -/
theorem regOfIndex_isSome {idx : Byte} (h : idx.toNat ≤ 14) : ∃ r, regOfIndex idx = some r := by
  unfold regOfIndex
  generalize idx.toNat = n at *
  interval_cases n <;> exact ⟨_, rfl⟩

/-- R76, R120: a command that is legal and permitted, and answers, answers ACCEPTED; no command changes a parameter or the command
stream. -/
theorem effect_next {i : Instr} {s t : State} (hl : fieldsLegal i s = true) (h : effect i s = .next t) :
    ∃ rdata u, t = answered .accepted rdata u ∧ u.responses = s.responses ∧ u.pchunk = s.pchunk ∧ u.pwrap = s.pwrap ∧
      u.cmdIn = s.cmdIn := by
  cases i <;> simp only [effect, accept_eq_answered, Host.Outcome.next.injEq] at h
  case nop => exact ⟨_, _, h.symm, rfl, rfl, rfl, rfl⟩
  case cfg v => exact ⟨_, _, h.symm, rfl, rfl, rfl, rfl⟩
  case lutN2c n => exact ⟨_, _, h.symm, rfl, rfl, rfl, rfl⟩
  case lutC2n ch => exact ⟨_, _, h.symm, rfl, rfl, rfl, rfl⟩
  case abort => exact ⟨_, _, h.symm, rfl, rfl, rfl, rfl⟩
  case ioerr k => cases k <;> exact ⟨_, _, h.symm, rfl, rfl, rfl, rfl⟩
  case rdreg idx =>
    obtain ⟨r, hr⟩ := regOfIndex_isSome (idx := idx) (by simpa [fieldsLegal] using hl)
    simp only [hr, Host.Outcome.next.injEq] at h
    exact ⟨_, _, h.symm, rfl, rfl, rfl, rfl⟩
  case chunk l =>
    split at h
    · cases h
    · obtain ⟨rdata, u, he, hr, -, -, -, -, -, h1, h2, h3⟩ := runChunk_answers l s
      simp only [Host.Outcome.next.injEq] at h
      exact ⟨rdata, u, h.symm.trans he, hr, h1, h2, h3⟩

/-- Every command that answers adds one response and changes no parameter and not the command stream. -/
theorem exec_answers {i : Instr} {s t : State} (h : exec i s = .next t) :
    ∃ acc rdata u, t = answered acc rdata u ∧ u.responses = s.responses ∧ u.pchunk = s.pchunk ∧ u.pwrap = s.pwrap ∧
      u.cmdIn = s.cmdIn := by
  rcases exec_next h with rfl | rfl | ⟨h1, -, h3⟩
  · exact ⟨_, _, _, rfl, rfl, rfl, rfl, rfl⟩
  · exact ⟨_, _, _, rfl, rfl, rfl, rfl, rfl⟩
  · exact ⟨_, effect_next h1 h3⟩

end Sys2Proof.Machine
end

