-- ==== Sys2Proof/Laws/PerInstr.lean ====
section
/-! SUPPORT. Statements about every command as syntax, one lemma per constructor. Family Opcode: the encoder puts a command's opcode in
w[31:28] (R67, R71). -/

namespace Sys2Proof.Laws.Opcode

open Sys2Proof

/-- OP of each command (R71). -/
def number : Instr → Nat
  | .nop => 0
  | .cfg _ => 1
  | .lutN2c _ => 2
  | .lutC2n _ => 3
  | .chunk _ => 4
  | .abort => 5
  | .ioerr _ => 6
  | .rdreg _ => 7

/-- The opcode field of a command's word is its opcode. -/
def Statement (i : Instr) : Prop := opField (encode i) = number i

theorem nop : Statement .nop := by unfold Statement; decide

theorem cfg (v : BitVec 7) : Statement (.cfg v) := by
  revert v; unfold Statement; decide

theorem lutN2c (n : Nibble) : Statement (.lutN2c n) := by
  revert n; unfold Statement; decide

theorem lutC2n (ch : Byte) : Statement (.lutC2n ch) := by
  revert ch; unfold Statement; decide

theorem chunk (l : BitVec 24) : Statement (.chunk l) := by
  have h := l.isLt
  simp only [Statement, opField, encode, number, BitVec.extractLsb'_toNat, BitVec.toNat_append, Nat.shiftRight_eq_div_pow,
    Nat.shiftLeft_eq]
  have : (4#4).toNat * 2 ^ 4 ||| (0#4).toNat = 64 := by decide
  rw [this, Nat.mul_comm, ← Nat.two_pow_add_eq_or_of_lt h]
  omega

theorem abort : Statement .abort := by unfold Statement; decide

theorem ioerr (k : IoSide) : Statement (.ioerr k) := by
  cases k <;> (unfold Statement; decide)

theorem rdreg (idx : Byte) : Statement (.rdreg idx) := by
  revert idx; unfold Statement; decide

end Sys2Proof.Laws.Opcode
end

