-- ==== Sys2Proof/Laws/Step.lean ====
section
/-! SUPPORT. What one step can do (R9, R61): the inversion lemma every statement about steps cites. -/

namespace Sys2Proof.Machine

open Sys2Proof.Safety

theorem dropInput_eq_popped {s : State} {x : HostInput} {rest : List HostInput} (h : s.cmdIn = x :: rest) :
    dropInput s = popped s rest := by
  simp [dropInput, popped, h]

/-- R148: only an accepted CHUNK waits for data. -/
theorem awaitsData_iff {i : Instr} {s : State} :
    awaitsData i s = true ↔
      ∃ l, i = .chunk l ∧ l.toNat ≤ s.pchunk.toNat ∧ s.status.state ≠ .error ∧ s.dataIn.length < l.toNat := by
  cases i <;> simp [awaitsData, fieldsLegal, permitted_chunk, dataShort, and_assoc]

/-- A command word that no reset cuts short is refused or executed. -/
theorem runWord_uncut {w : Word} {s : State} (h : s.cmdIn.head? ≠ some .reset) :
    runWord w s = match decode w with
      | .error _ => .next (answered .rejIllegal 0 s)
      | .ok i => exec i s := by
  unfold runWord
  have : ∀ i, resetCuts i s = none := by
    intro i
    simp [resetCuts, h]
  cases decode w with
  | error e => rfl
  | ok i => simp [this]

/-- What a step that answers has done: waited, been reset, refused an illegal word, had its waiting CHUNK cut by reset, or executed the
command at the front. -/
theorem step_next {s t : State} (h : step s = .next t) :
    (s.cmdIn = [] ∧ t = s) ∨
    (∃ rest, s.cmdIn = .reset :: rest ∧ t = applyReset (popped s rest)) ∨
    (∃ w e rest, s.cmdIn = .word w :: rest ∧ decode w = .error e ∧ t = answered .rejIllegal 0 (popped s rest)) ∨
    (∃ w l rest, s.cmdIn = .word w :: .reset :: rest ∧ decode w = .ok (.chunk l) ∧ l.toNat ≤ s.pchunk.toNat ∧
      s.status.state ≠ .error ∧ s.dataIn.length < l.toNat ∧ t = applyReset { popped s rest with dataIn := [] }) ∨
    (∃ w i rest, s.cmdIn = .word w :: rest ∧ decode w = .ok i ∧ exec i (popped s rest) = .next t) := by
  unfold step at h
  split at h
  · rename_i hc
    exact .inl ⟨hc, by simpa [waitForCommand] using h.symm⟩
  · rename_i rest hc
    refine .inr (.inl ⟨rest, hc, ?_⟩)
    rw [dropInput_eq_popped hc] at h
    simpa using h.symm
  · rename_i w rest hc
    rw [dropInput_eq_popped hc] at h
    unfold runWord at h
    split at h
    · rename_i e he
      exact .inr (.inr (.inl ⟨w, e, rest, hc, he, by simpa using h.symm⟩))
    · rename_i i hi
      split at h
      · rename_i u hu
        refine .inr (.inr (.inr (.inl ?_)))
        unfold resetCuts at hu
        split at hu
        · rename_i hcut
          simp only [Bool.and_eq_true, beq_iff_eq] at hcut
          obtain ⟨haw, hhead⟩ := hcut
          obtain ⟨l, rfl, hle, hst, hlt⟩ := awaitsData_iff.1 haw
          have hr : ∃ rest', rest = .reset :: rest' := by
            cases rest with
            | nil => simp [popped] at hhead
            | cons x xs =>
              simp only [popped, List.head?_cons, Option.some.injEq] at hhead
              exact ⟨xs, by rw [hhead]⟩
          obtain ⟨rest', rfl⟩ := hr
          refine ⟨w, l, rest', hc, hi, hle, hst, hlt, ?_⟩
          simp only [Option.some.injEq] at hu
          simp only [Host.Outcome.next.injEq] at h
          rw [← h, ← hu]
          rfl
        · cases hu
      · exact .inr (.inr (.inr (.inr ⟨w, i, rest, hc, hi, h⟩)))

end Sys2Proof.Machine
end

