-- ==== Sys2Proof/Tests/Slice0.lean ====
section
/-! SUPPORT. Tests of the model: expected results are from 95_test_vectors.md (cited by vector) or worked out by hand from the cited
rule. The witnesses give, for every obligation with hypotheses, concrete values that meet them together. -/

namespace Sys2Proof.Tests

open Sys2Proof.Machine Sys2Proof.Safety

/-! ### Small states -/

/-- A CORE of P_CHUNK_MAX = 4 and P_WRAP_BYTES = 2 right after reset, then given a configuration, data and a sink. -/
def probe (cfg : Word) (data : List Byte) (plan : List Nat) : State :=
  { State.reset with cfg := cfg, pchunk := 4, pwrap := 2, dataIn := data, sinkPlan := plan }

/-- `probe` in ACTIVE after one full chunk. -/
def probeActive (cfg : Word) (data : List Byte) : State :=
  { probe cfg data [] with status := ⟨.active, .none, false⟩, inCount := 4 }

/-- `probe` in ERROR with InvalidDigit. -/
def probeError (data : List Byte) : State :=
  { probe 0x10 data [] with status := ⟨.error, .invalidDigit, false⟩, errChar := 0x47 }

/-- The state after an outcome that is a next state. -/
def after (o : Host.Outcome State Fault Refusal) : Option State :=
  match o with
  | .next t => some t
  | .fault _ => none
  | .refused _ => none

/-- The response an outcome adds to a state that had given none. -/
def response (o : Host.Outcome State Fault Refusal) : Option Response := (after o).bind fun t => t.responses.head?

/-- A word on the command port. -/
def at_ (s : State) (words : List HostInput) : State := { s with cmdIn := words }

/-! ### WellFormed: each check refuses an ill-formed command (R74) -/

theorem test_wellFormed_refuses_long_chunk : (Instr.chunk 262145).wellFormed 262144 = false := by decide

theorem test_wellFormed_accepts_full_chunk : (Instr.chunk 262144).wellFormed 262144 = true := by decide

theorem test_wellFormed_refuses_index_15 : (Instr.rdreg 15).wellFormed 262144 = false := by decide

theorem test_wellFormed_accepts_index_14 : (Instr.rdreg 14).wellFormed 262144 = true := by decide

/-! ### Decode: words written bit by bit from the formats (R68, R71) -/

theorem test_decode_nop : decode 0b0000_0000000000000000000000000000 = .ok .nop := by decide

theorem test_decode_cfg : decode 0b0001_000000000000000000000_1010011 = .ok (.cfg 0x53) := by decide

theorem test_decode_lutN2c : decode 0b0010_000000000000000000000000_1010 = .ok (.lutN2c 10) := by decide

theorem test_decode_lutC2n : decode 0b0011_00000000000000000000_01100001 = .ok (.lutC2n 0x61) := by decide

theorem test_decode_chunk : decode 0b0100_0000_100000000000000000100001 = .ok (.chunk 0x800021) := by decide

theorem test_decode_abort : decode 0b0101_0000000000000000000000000000 = .ok .abort := by decide

theorem test_decode_ioerr_read : decode 0b0110_000000000000000000000000000_0 = .ok (.ioerr .read) := by decide

theorem test_decode_ioerr_write : decode 0b0110_000000000000000000000000000_1 = .ok (.ioerr .write) := by decide

theorem test_decode_rdreg : decode 0b0111_00000000000000000000_00001110 = .ok (.rdreg 14) := by decide

/-- R73: the first and the last reserved opcode (CV-13). -/
theorem test_decode_reserved_opcodes :
    decode 0x80000000 = .error .reservedOpcode ∧ decode 0xF0000000 = .error .reservedOpcode := by decide

/-- R72: the lowest reserved bit of each format (CV-2, CV-4, LV-16, LV-17, CV-8). -/
theorem test_decode_reserved_bits :
    decode 0x00000001 = .error .reservedBits ∧ decode 0x10000080 = .error .reservedBits ∧
      decode 0x20000010 = .error .reservedBits ∧ decode 0x30000100 = .error .reservedBits ∧
      decode 0x41000000 = .error .reservedBits ∧ decode 0x50000001 = .error .reservedBits ∧
      decode 0x60000002 = .error .reservedBits ∧ decode 0x70000100 = .error .reservedBits := by decide

theorem test_decodeTableWord : decodeTableWord 32 0x40000021 = some (.chunk 33) ∧ decodeTableWord 32 0x80000000 = none := by decide

/-- The word placed where step takes its next command is run (LV-3). -/
theorem test_withFetchWord : response (step (State.reset.withFetchWord 32 0x2000000A)) = some ⟨0x00, 0x141⟩ := by decide

/-- A CHUNK's word comes with its data: CHUNK 2 of zeros is the encoding "0000\n" (EV-2 with one more byte). -/
theorem test_withFetchWord_chunk : response (step (State.reset.withFetchWord 32 0x40000002)) = some ⟨0x80, 5⟩ := by decide

/-! ### One step of each command -/

/-- CV-18: NOP in ERROR with IOFailure answers the status. -/
theorem test_nop_in_error :
    response (exec .nop { State.reset with status := ⟨.error, .ioFailure, false⟩ }) = some ⟨0x38, 0⟩ := by decide

/-- CV-3. -/
theorem test_cfg : (after (exec (.cfg 3) State.reset)).map State.cfg = some 0x03 := by decide

/-- CV-16: REJ_STATE in ACTIVE. -/
theorem test_cfg_in_active : response (exec (.cfg 3) (probeActive 2 [])) = some ⟨0x06, 0⟩ := by decide

/-- LV-3, LV-6. -/
theorem test_lutN2c :
    response (exec (.lutN2c 10) State.reset) = some ⟨0, 0x141⟩ ∧
      response (exec (.lutN2c 15) { State.reset with cfg := 0x03 }) = some ⟨0, 0x166⟩ := by decide

/-- LV-9, LV-11. -/
theorem test_lutC2n :
    response (exec (.lutC2n 0x41) State.reset) = some ⟨0, 0x10A⟩ ∧ response (exec (.lutC2n 0x61) State.reset) = some ⟨0, 0⟩ := by
  decide

/-- EV-8 on lines of 2: three bytes, one wrap newline, lazily, and the end-of-stream newline. -/
theorem test_chunk_encode :
    (after (exec (.chunk 3) (probe 2 [0x00, 0x0A, 0xFF] []))).map (fun t => (t.sink, t.lineBytes, t.status.word)) =
      some ([0x30, 0x30, 0x30, 0x41, 0x0A, 0x46, 0x46, 0x0A], 1, 0x20) := by decide

/-- DV-7: "4G". -/
theorem test_chunk_invalid_digit :
    (after (exec (.chunk 2) (probe 0x10 [0x34, 0x47] []))).map
        (fun t => (t.sink, t.errOffset, t.errChar, t.inCount, t.pendNib, t.status.word)) =
      some ([], 1, 0x47, 1, 4, 0x06) := by decide

/-- CV-19: the record is cleared, CFG and SINK are kept. -/
theorem test_abort :
    (after (exec .abort { probeError [] with sink := [0x30] })).map (fun t => (t.status.word, t.errChar, t.cfg, t.sink)) =
      some (0, 0, 0x10, [0x30]) := by decide

/-- CV-7, CV-17: the two records, IN_COUNT kept. -/
theorem test_ioerr :
    response (exec (.ioerr .write) State.reset) = some ⟨0x38, 0⟩ ∧
      (after (exec (.ioerr .read) (probeActive 2 []))).map (fun t => (t.errOffset, t.errChar)) = some (4, 0x00) := by decide

/-- CV-10, CV-12. -/
theorem test_rdreg :
    response (exec (.rdreg 13) State.reset) = some ⟨0, 0x40000⟩ ∧ response (exec (.rdreg 15) State.reset) = some ⟨0x01, 0⟩ := by
  decide

/-! ### The probe states meet the invariants -/

theorem invariants_probe (cfg : Word) (data : List Byte) (plan : List Nat) (h : cfg.extractLsb' 7 25 = 0) :
    Invariants (probe cfg data plan) := by
  constructor <;> simp [probe, State.reset, State.obuf, Config.chunkMaxInRange, Config.wrapBytesInRange, h]

theorem invariants_probeActive (cfg : Word) (data : List Byte) (h : cfg.extractLsb' 7 25 = 0) :
    Invariants (probeActive cfg data) := by
  constructor
  case activeCount => exact fun _ => ⟨1, by decide, rfl⟩
  all_goals
    simp [probeActive, probe, State.reset, State.obuf, Config.chunkMaxInRange, Config.wrapBytesInRange, h]

/-! ### Witnesses -/

theorem witness_EncodeOfDecode : decode 0x40000021 = .ok (.chunk 33) := by decide

/-- Each clause, every operand at its largest value. -/
theorem witness_OperandsReadFromWord :
    decode 0x1000007F = .ok (.cfg 127) ∧ decode 0x2000000F = .ok (.lutN2c 15) ∧ decode 0x300000FF = .ok (.lutC2n 255) ∧
      decode 0x40FFFFFF = .ok (.chunk 0xFFFFFF) ∧ decode 0x60000001 = .ok (.ioerr .write) ∧ decode 0x700000FF = .ok (.rdreg 255) := by
  decide

/-- One word for each clause, at the lowest value of its range. -/
theorem witness_IllegalWordRefused :
    (∀ w, (at_ State.reset [.word w]).cmdIn = .word w :: []) ∧ 8 ≤ (0x80000000 : Word).toNat / 2 ^ 28 ∧
      ((0x00000001 : Word).toNat / 2 ^ 28 = 0 ∧ (0x00000001 : Word).toNat % 2 ^ 28 ≠ 0) ∧
      ((0x10000080 : Word).toNat / 2 ^ 28 = 1 ∧ 2 ^ 7 ≤ (0x10000080 : Word).toNat % 2 ^ 28) ∧
      ((0x20000010 : Word).toNat / 2 ^ 28 = 2 ∧ 2 ^ 4 ≤ (0x20000010 : Word).toNat % 2 ^ 28) ∧
      ((0x30000100 : Word).toNat / 2 ^ 28 = 3 ∧ 2 ^ 8 ≤ (0x30000100 : Word).toNat % 2 ^ 28) ∧
      ((0x41000000 : Word).toNat / 2 ^ 28 = 4 ∧ 2 ^ 24 ≤ (0x41000000 : Word).toNat % 2 ^ 28) ∧
      ((0x50000001 : Word).toNat / 2 ^ 28 = 5 ∧ (0x50000001 : Word).toNat % 2 ^ 28 ≠ 0) ∧
      ((0x60000002 : Word).toNat / 2 ^ 28 = 6 ∧ 2 ^ 1 ≤ (0x60000002 : Word).toNat % 2 ^ 28) ∧
      ((0x70000100 : Word).toNat / 2 ^ 28 = 7 ∧ 2 ^ 8 ≤ (0x70000100 : Word).toNat % 2 ^ 28) :=
  ⟨fun _ => rfl, by decide⟩

/-- No reset behind the word; a reset behind a CHUNK that has its data, is too long, or meets ERROR. -/
theorem witness_StepRunsDecodedCommand :
    ((at_ State.reset [.word 0]).cmdIn = .word 0 :: [] ∧ decode 0 = .ok .nop ∧ ([] : List HostInput).head? ≠ some .reset) ∧
      ((at_ (probe 2 [7] []) [.word 0x40000001, .reset]).cmdIn = .word 0x40000001 :: [.reset] ∧
        decode 0x40000001 = .ok (.chunk 1) ∧ (1 : BitVec 24).toNat ≤ (probe 2 [7] []).dataIn.length) ∧
      (decode 0x40000005 = .ok (.chunk 5) ∧ (probe 2 [] []).pchunk.toNat < (5 : BitVec 24).toNat) ∧
      (probeError []).status.state = .error := by decide

theorem witness_WaitingKeepsState : State.reset.cmdIn = [] := by decide

theorem witness_StepTakesReset : (at_ (probeActive 3 [7]) [.reset]).cmdIn = .reset :: [] := by decide

theorem witness_ResetCutsWaitingChunk :
    (at_ (probe 2 [1, 2, 3] []) [.word (encode (.chunk 4)), .reset]).cmdIn = .word (encode (.chunk 4)) :: .reset :: [] ∧
      (4 : BitVec 24).toNat ≤ (probe 2 [1, 2, 3] []).pchunk.toNat ∧ (probe 2 [1, 2, 3] []).status.state ≠ .error ∧
      (probe 2 [1, 2, 3] []).dataIn.length < (4 : BitVec 24).toNat := by decide

theorem witness_OneResponsePerWord :
    (at_ State.reset [.word 0]).cmdIn = .word 0 :: [] ∧ ([] : List HostInput).head? ≠ some .reset ∧
      (after (step (at_ State.reset [.word 0]))).isSome = true ∧
      (at_ (probe 2 [7] []) [.word 0x40000001, .reset]).cmdIn = .word 0x40000001 :: [.reset] ∧
      decode 0x40000001 = .ok (.chunk 1) ∧ (1 : BitVec 24).toNat ≤ (probe 2 [7] []).dataIn.length ∧
      (after (step (at_ (probe 2 [7] []) [.word 0x40000001, .reset]))).isSome = true := by decide

/-- The first value past each bound, and the last value within it. -/
theorem witness_IllegalFieldRefused :
    (probe 2 [] []).pchunk.toNat < (5 : BitVec 24).toNat ∧ 14 < (15 : Byte).toNat ∧
      ((4 : BitVec 24).toNat ≤ (probe 2 [1, 2, 3, 4] []).pchunk.toNat ∧
        (after (exec (.chunk 4) (probe 2 [1, 2, 3, 4] []))).isSome = true) ∧
      (14 : Byte).toNat ≤ 14 ∧ (after (exec (.rdreg 14) (probe 2 [] []))).isSome = true := by decide

theorem witness_PermissionTable :
    (probeActive 2 []).status.state ≠ .idle ∧ (probeError []).status.state = .error ∧
      (4 : BitVec 24).toNat ≤ (probeError []).pchunk.toNat := by decide

/-- CFG in IDLE, a full CHUNK in ACTIVE, IOERR in ACTIVE: the commands with a condition. -/
theorem witness_PermissionTable_accepted :
    ((Instr.cfg 3).wellFormed (probe 2 [] []).pchunk = true ∧ (probe 2 [] []).status.state = .idle ∧
        (after (exec (.cfg 3) (probe 2 [] []))).isSome = true) ∧
      ((Instr.chunk 4).wellFormed (probeActive 2 [1, 2, 3, 4]).pchunk = true ∧
        (probeActive 2 [1, 2, 3, 4]).status.state ≠ .error ∧
        (after (exec (.chunk 4) (probeActive 2 [1, 2, 3, 4]))).isSome = true) ∧
      ((Instr.ioerr .read).wellFormed (probeActive 2 []).pchunk = true ∧ (probeActive 2 []).status.state ≠ .error ∧
        (after (exec (.ioerr .read) (probeActive 2 []))).isSome = true) := by decide

theorem witness_CfgWritesConfiguration : (probe 2 [] []).status.state = .idle := by decide

theorem witness_IoerrLatchesIoFailure :
    (probe 2 [] []).status.state ≠ .error ∧ (probeActive 2 []).status.state ≠ .error ∧ (probeError []).status.state = .error := by
  decide

/-- The first and the last register, and one between. -/
theorem witness_RdregReadsRegister :
    (registerNumbers State.reset)[(0 : Byte).toNat]? = some 0 ∧ (registerNumbers State.reset)[(1 : Byte).toNat]? = some 2 ∧
      (registerNumbers State.reset)[(14 : Byte).toNat]? = some 32 := by decide

theorem witness_TableLaws :
    c2n false false 0x41 = some 10 ∧ c2n true true 0x41 = some 10 ∧ n2c true 3 = n2c true 3 := by decide

/-- A full chunk and an empty one, in IDLE and in ACTIVE, to a sink that takes all. -/
theorem witness_ChunkEncodeDelivers :
    (Invariants (probe 2 [1, 2, 3, 4] []) ∧ (probe 2 [1, 2, 3, 4] []).status.state ≠ .error ∧
        (probe 2 [1, 2, 3, 4] []).decoding = false ∧ (4 : BitVec 24).toNat ≤ (probe 2 [1, 2, 3, 4] []).pchunk.toNat ∧
        (4 : BitVec 24).toNat ≤ (probe 2 [1, 2, 3, 4] []).dataIn.length ∧ planned (probe 2 [1, 2, 3, 4] []) 9 = 9 ∧
        (encodeFrom true false 2 0 [1, 2, 3, 4]).length = 9) ∧
      (Invariants (probeActive 2 []) ∧ (probeActive 2 []).status.state ≠ .error ∧ (probeActive 2 []).decoding = false ∧
        (0 : BitVec 24).toNat ≤ (probeActive 2 []).pchunk.toNat ∧ (0 : BitVec 24).toNat ≤ (probeActive 2 []).dataIn.length ∧
        planned (probeActive 2 []) 1 = 1) :=
  ⟨⟨invariants_probe 2 _ [] (by decide), by decide⟩, invariants_probeActive 2 _ (by decide), by decide⟩

/-- FV-1 and FV-2: the sink takes one byte of three, and none. -/
theorem witness_ChunkEncodeShortWrite :
    Invariants (probe 2 [0] [1]) ∧ Invariants (probe 2 [0] [0]) ∧ (probe 2 [0] [1]).status.state ≠ .error ∧
      (probe 2 [0] [1]).decoding = false ∧ (1 : BitVec 24).toNat ≤ (probe 2 [0] [1]).pchunk.toNat ∧
      (1 : BitVec 24).toNat ≤ (probe 2 [0] [1]).dataIn.length ∧
      (encodeFrom true false 2 0 [0] ++ [newline]).length = 3 ∧ planned (probe 2 [0] [1]) 3 < 3 ∧ planned (probe 2 [0] [0]) 3 < 3 :=
  ⟨invariants_probe 2 _ _ (by decide), invariants_probe 2 _ _ (by decide), by decide⟩

/-- A short chunk that completes its byte, and a full chunk in stream scope that leaves a nibble pending ("414\n"). -/
theorem witness_ChunkDecodeDelivers :
    (Invariants (probe 0x10 [0x34, 0x31] []) ∧ (probe 0x10 [0x34, 0x31] []).status.state ≠ .error ∧
        (probe 0x10 [0x34, 0x31] []).decoding = true ∧ (2 : BitVec 24).toNat ≤ (probe 0x10 [0x34, 0x31] []).pchunk.toNat ∧
        (2 : BitVec 24).toNat ≤ (probe 0x10 [0x34, 0x31] []).dataIn.length ∧
        decodeFrom false false false (pendOf (sessionOf (probe 0x10 [0x34, 0x31] []))) 0 [0x34, 0x31] = .ok ([0x41], none) ∧
        planned (probe 0x10 [0x34, 0x31] []) 1 = 1) ∧
      (Invariants (probe 0x10 [0x34, 0x31, 0x34, 0x0A] []) ∧ (probe 0x10 [0x34, 0x31, 0x34, 0x0A] []).chunkScope = false ∧
        (4 : BitVec 24).toNat ≤ (probe 0x10 [] []).pchunk.toNat ∧
        decodeFrom false false false none 0 [0x34, 0x31, 0x34, 0x0A] = .ok ([0x41], some 4)) :=
  ⟨⟨invariants_probe 0x10 _ _ (by decide), by decide⟩, invariants_probe 0x10 _ _ (by decide), by decide⟩

/-- FV-5. -/
theorem witness_ChunkDecodeShortWrite :
    Invariants (probe 0x10 [0x34, 0x31, 0x34, 0x32] [1]) ∧ (probe 0x10 [0x34, 0x31, 0x34, 0x32] [1]).status.state ≠ .error ∧
      (probe 0x10 [0x34, 0x31, 0x34, 0x32] [1]).decoding = true ∧ (4 : BitVec 24).toNat ≤ (probe 0x10 [] []).pchunk.toNat ∧
      decodeFrom false false false none 0 [0x34, 0x31, 0x34, 0x32] = .ok ([0x41, 0x42], none) ∧
      planned (probe 0x10 [0x34, 0x31, 0x34, 0x32] [1]) 2 < 2 :=
  ⟨invariants_probe 0x10 _ _ (by decide), by decide⟩

/-- DV-7, and DV-8 where the first character fails. -/
theorem witness_ChunkInvalidDigit :
    Invariants (probe 0x10 [0x34, 0x47] []) ∧ (probe 0x10 [0x34, 0x47] []).status.state ≠ .error ∧
      (probe 0x10 [0x34, 0x47] []).decoding = true ∧ (2 : BitVec 24).toNat ≤ (probe 0x10 [0x34, 0x47] []).pchunk.toNat ∧
      (2 : BitVec 24).toNat ≤ (probe 0x10 [0x34, 0x47] []).dataIn.length ∧
      decodeFrom false false false (pendOf (sessionOf (probe 0x10 [0x34, 0x47] []))) 0 [0x34, 0x47] = .error (1, 0x47) ∧
      decodeFrom false false false none 0 [0x47, 0x34] = .error (0, 0x47) :=
  ⟨invariants_probe 0x10 _ _ (by decide), by decide⟩

/-- DV-5 at end of stream, and a full chunk in chunk scope. -/
theorem witness_ChunkInvalidAlignment :
    (Invariants (probe 0x10 [0x34] []) ∧ (probe 0x10 [0x34] []).status.state ≠ .error ∧
        (probe 0x10 [0x34] []).decoding = true ∧ (1 : BitVec 24).toNat ≤ (probe 0x10 [0x34] []).dataIn.length ∧
        decodeFrom false false false (pendOf (sessionOf (probe 0x10 [0x34] []))) 0 [0x34] = .ok ([], some 4) ∧
        (1 : BitVec 24).toNat < (probe 0x10 [0x34] []).pchunk.toNat) ∧
      (Invariants (probe 0x50 [0x34, 0x31, 0x34, 0x0A] []) ∧ (4 : BitVec 24).toNat = (probe 0x50 [] []).pchunk.toNat ∧
        decodeFrom false false false none 0 [0x34, 0x31, 0x34, 0x0A] = .ok ([0x41], some 4) ∧
        (probe 0x50 [] []).chunkScope = true) :=
  ⟨⟨invariants_probe 0x10 _ _ (by decide), by decide⟩, invariants_probe 0x50 _ _ (by decide), by decide⟩

theorem witness_ChunkCompletes :
    (4 : BitVec 24).toNat ≤ (probeActive 2 [1, 2, 3, 4]).pchunk.toNat ∧ (probeActive 2 [1, 2, 3, 4]).status.state ≠ .error ∧
      (4 : BitVec 24).toNat ≤ (probeActive 2 [1, 2, 3, 4]).dataIn.length := by decide

/-- The probe in ERROR meets the invariants. -/
theorem invariants_probeError (data : List Byte) : Invariants (probeError data) := by
  constructor <;> simp [probeError, probe, State.reset, State.obuf, Config.chunkMaxInRange, Config.wrapBytesInRange]

/-- A full chunk, a short one, one that raises, and one in ERROR. -/
theorem witness_ChunkTransitions :
    (Invariants (probe 2 [1, 2, 3, 4] []) ∧ (after (exec (.chunk 4) (probe 2 [1, 2, 3, 4] []))).isSome = true) ∧
      (Invariants (probe 2 [] []) ∧ (after (exec (.chunk 0) (probe 2 [] []))).isSome = true) ∧
      (Invariants (probe 0x10 [0x34] []) ∧ (after (exec (.chunk 1) (probe 0x10 [0x34] []))).isSome = true) ∧
      (Invariants (probeError []) ∧ (after (exec (.chunk 4) (probeError []))).isSome = true) ∧
      (4 : BitVec 24).toNat ≤ (probe 2 [] []).pchunk.toNat ∧ (4 : BitVec 24).toNat ≤ (probeError []).pchunk.toNat ∧
      (probe 2 [] []).status.state ≠ .error ∧ (probe 0x10 [] []).status.state ≠ .error ∧ (probeError []).status.state = .error :=
  ⟨⟨invariants_probe 2 _ _ (by decide), by decide⟩, ⟨invariants_probe 2 _ _ (by decide), by decide⟩,
    ⟨invariants_probe 0x10 _ _ (by decide), by decide⟩, ⟨invariants_probeError _, by decide⟩, by decide⟩

theorem witness_StagedWithinCapacity :
    Invariants (probe 2 [1, 2, 3, 4] []) ∧ (4 : BitVec 24).toNat ≤ (probe 2 [1, 2, 3, 4] []).pchunk.toNat ∧
      (4 : BitVec 24).toNat ≤ (probe 2 [1, 2, 3, 4] []).dataIn.length ∧
      ∃ t, stageChunk 4 (probe 2 [1, 2, 3, 4] []) = .going t :=
  ⟨invariants_probe 2 _ _ (by decide), by decide, by decide, _, rfl⟩

/-- Each direction: every bit the statement leaves free is changed. -/
theorem witness_UnusedConfigurationBits :
    ((0x6C : Word).getLsbD 0 = (probe 0 [] []).cfg.getLsbD 0 ∧ (0x6C : Word).getLsbD 4 = (probe 0 [] []).cfg.getLsbD 4 ∧
        (probe 0 [] []).cfg.getLsbD 4 = false ∧ (0x6C : Word).getLsbD 1 = (probe 0 [] []).cfg.getLsbD 1) ∧
      ((0x12 : Word).getLsbD 0 = (probe 0x10 [] []).cfg.getLsbD 0 ∧ (0x12 : Word).getLsbD 4 = (probe 0x10 [] []).cfg.getLsbD 4 ∧
        (probe 0x10 [] []).cfg.getLsbD 4 = true ∧ (0x12 : Word).getLsbD 2 = (probe 0x10 [] []).cfg.getLsbD 2 ∧
        (0x12 : Word).getLsbD 3 = (probe 0x10 [] []).cfg.getLsbD 3 ∧ (0x12 : Word).getLsbD 5 = (probe 0x10 [] []).cfg.getLsbD 5 ∧
        (0x12 : Word).getLsbD 6 = (probe 0x10 [] []).cfg.getLsbD 6) := by decide

/-- SV7 in small: three bytes on lines of two. -/
theorem witness_EncodedTextIsLines :
    0 < 2 ∧ ([1, 2, 3] : List Byte) ≠ [] := by decide

theorem witness_EncodedLength : 0 < 32 := by decide

/-- SV2 with mixed case: "aB". -/
theorem witness_RoundTripLaws :
    0 < 32 ∧ ([0x61, 0x42] : List Byte).length % 2 = 0 ∧ ∀ c ∈ ([0x61, 0x42] : List Byte), (c2n false true c).isSome = true := by
  decide

/-- Five bytes through chunks of four, to a sink that takes OBUF_CAP = 11 bytes at each commit. -/
theorem witness_StreamEncodes :
    Invariants (probe 2 [] []) ∧ (probe 2 [] []).status.state = .idle ∧ (probe 2 [] []).decoding = false ∧
      AcceptsAll (probe 2 [] []) [11, 11] ∧ streamLength 4 5 = 2 :=
  ⟨invariants_probe 2 _ _ (by decide), by decide, by decide, by unfold AcceptsAll; decide, by decide⟩

/-- "41\n42" through chunks of four. -/
theorem witness_StreamDecodes :
    Invariants (probe 0x10 [] []) ∧ (probe 0x10 [] []).status.state = .idle ∧ (probe 0x10 [] []).decoding = true ∧
      (probe 0x10 [] []).chunkScope = false ∧ AcceptsAll (probe 0x10 [] []) [11, 11] ∧
      decodeText false false false [0x34, 0x31, 0x0A, 0x34, 0x32] = .ok [0x41, 0x42] :=
  ⟨invariants_probe 0x10 _ _ (by decide), by decide, by decide, by decide, by unfold AcceptsAll; decide, by decide⟩

/-- Both kinds of error: DV-7 and DV-5. -/
theorem witness_StreamReportsFirstError :
    Invariants (probe 0x10 [] []) ∧ (probe 0x10 [] []).status.state = .idle ∧ (probe 0x10 [] []).decoding = true ∧
      (probe 0x10 [] []).chunkScope = false ∧ AcceptsAll (probe 0x10 [] []) [11, 11] ∧
      decodeText false false false [0x34, 0x47] = .error (.digit 1 0x47) ∧
      decodeText false false false [0x34] = .error (.alignment 1) :=
  ⟨invariants_probe 0x10 _ _ (by decide), by decide, by decide, by decide, by unfold AcceptsAll; decide, by decide, by decide⟩

theorem witness_StepKeepsInvariants : Invariants (probe 2 [] []) ∧ (after (step (probe 2 [] []))).isSome = true :=
  ⟨invariants_probe 2 _ _ (by decide), by decide⟩

theorem witness_ParametersNeverChange : (after (step (at_ (probe 2 [] []) [.reset]))).isSome = true := by decide

/-- A step that appends to SINK. -/
theorem witness_SinkOnlyGrows :
    Invariants (probe 2 [7] []) ∧ (after (step (at_ (probe 2 [7] []) [.word 0x40000001]))).map State.sink = some [0x30, 0x37, 0x0A] :=
  ⟨invariants_probe 2 _ _ (by decide), by decide⟩

/-- A step by CFG and a step by reset, each of which changes CFG. -/
theorem witness_ConfigurationLocked :
    (after (step (at_ (probe 2 [] []) [.word 0x10000003]))).map State.cfg = some 3 ∧
      (after (step (at_ (probe 3 [] []) [.reset]))).map State.cfg = some 2 ∧ (3 : Word) ≠ 2 := by decide

theorem witness_ErrorLatchHolds :
    (probeError []).status.state = .error ∧ Instr.chunk 4 ≠ .abort ∧
      (after (exec (.chunk 4) (probeError []))).isSome = true := by decide

theorem witness_ResWrittenByLookupsOnly :
    (∀ n, Instr.chunk 0 ≠ .lutN2c n) ∧ (∀ ch, Instr.chunk 0 ≠ .lutC2n ch) ∧
      (after (exec (.chunk 0) (probe 2 [] []))).isSome = true :=
  ⟨fun _ => by simp, fun _ => by simp, by decide⟩

theorem witness_EncoderRaisesNoDecodeError :
    Invariants (probe 2 [7] []) ∧ (probe 2 [7] []).status.state ≠ .error ∧ (probe 2 [7] []).decoding = false ∧
      (after (exec (.chunk 1) (probe 2 [7] []))).isSome = true :=
  ⟨invariants_probe 2 _ _ (by decide), by decide⟩

theorem witness_PlacedCommandRunsNext : decodeTableWord 32 0x40000021 = some (.chunk 33) := by decide

end Sys2Proof.Tests
end

/-! The statement of rule R12: no CHUNK overflows OBUF. -/

namespace Sys2Proof.Machine

open Sys2Proof.Safety

/-- R12: whichever way the staging of a CHUNK that has its data reaches the commit, OBUF holds fewer than OBUF_CAP bytes. -/
theorem stageChunk_obuf_length_lt {l : BitVec 24} {s t : State} (hi : Invariants s) (hl : l.toNat ≤ s.pchunk.toNat)
    (hn : l.toNat ≤ s.dataIn.length) (h : stageChunk l s = .going t) : t.obuf.length < obufCap s := by
  obtain ⟨-, henc⟩ | ⟨-, bs, q, hdec, -, hgo⟩ | ⟨-, kind, off, ch, i, bs, q, -, -, hraise⟩ := stageChunk_cases hi hn
  · obtain rfl : encodedChunk l s = t := Run.going.inj (henc.symm.trans h)
    rw [encodedChunk_obuf]
    exact encodedOutput_length_lt hi hn hl
  · obtain rfl : decodedChunk l s bs q = t := Run.going.inj (hgo.symm.trans h)
    rw [decodedChunk_obuf]
    exact decodedOutput_length_lt hi hl hdec
  · cases hraise.symm.trans h

/-- R12: OBUF_CAP of the default parameters, 524288 + 8192 + 1. -/
theorem obufCap_reset : obufCap State.reset = 532481 := by decide

/-- Settles O33: staging ends in the encoder's or the decoder's closed form, and each is bounded by its length law. -/
theorem stagedWithinCapacity : Obligations.StagedWithinCapacity :=
  ⟨fun _ _ _ hi hl hn h => stageChunk_obuf_length_lt hi hl hn h, obufCap_reset⟩

end Sys2Proof.Machine

/-! What a command that answers has done, over all commands: the inversion of `exec` every statement below about a step cites. -/

namespace Sys2Proof.Machine

open Sys2Proof.Safety

/-- `Executed s i t`: the command `i`, executed in `s`, may answer with `t`. One case per kind of effect; a refusal, NOP and RDREG only
answer. -/
inductive Executed (s : State) : Instr → State → Prop
  /-- R121, R122, R126 -/
  | answer (i : Instr) (acc : Acc) (rdata : Word) : Executed s i (answered acc rdata s)
  /-- R123 -/
  | cfg (v : BitVec 7) (hidle : s.status.state = .idle) :
    Executed s (.cfg v) (answered .accepted 0 { s with cfg := v.setWidth 32 })
  /-- R88 -/
  | lutN2c (n : Nibble) :
    Executed s (.lutN2c n) (answered .accepted (resFound (n2c s.lower n)) { s with res := resFound (n2c s.lower n) })
  /-- R89 -/
  | lutC2n (ch : Byte) : Executed s (.lutC2n ch) (answered .accepted (c2nResult s ch) { s with res := c2nResult s ch })
  /-- R109 -/
  | chunk (l : BitVec 24) (hlegal : l.toNat ≤ s.pchunk.toNat) (hstate : s.status.state ≠ .error)
    (hdata : l.toNat ≤ s.dataIn.length) : Executed s (.chunk l) (runChunk l s)
  /-- R124 -/
  | abort : Executed s .abort (answered .accepted 0 (abortSession s))
  /-- R125 -/
  | ioerr (k : IoSide) : Executed s (.ioerr k) (answered .accepted 0 (raiseIo k s))

/-- R120: CFG is permitted in IDLE only. -/
theorem permitted_cfg {v : BitVec 7} {st : SessionState} : permitted (.cfg v) st = true ↔ st = .idle := by
  cases st <;> simp [permitted]

theorem executed_of_exec {i : Instr} {s t : State} (h : exec i s = .next t) : Executed s i t := by
  rcases exec_next h with rfl | rfl | ⟨hl, hp, he⟩
  · exact .answer i _ _
  · exact .answer i _ _
  · cases i with
    | nop => cases he; exact .answer _ _ _
    | cfg v => cases he; exact .cfg v (permitted_cfg.1 hp)
    | lutN2c n => cases he; exact .lutN2c n
    | lutC2n ch => cases he; exact .lutC2n ch
    | abort => cases he; exact .abort
    | ioerr k => cases he; exact .ioerr k
    | rdreg idx =>
      simp only [effect] at he
      split at he <;> cases he <;> exact .answer _ _ _
    | chunk l =>
      rcases exec_chunk_next h with rfl | rfl | ⟨hlegal, hstate, hdata, rfl⟩
      · exact .answer _ _ _
      · exact .answer _ _ _
      · exact .chunk l hlegal hstate hdata

end Sys2Proof.Machine

/-! R48: every step keeps the invariants. -/

namespace Sys2Proof.Machine

open Sys2Proof.Safety

/-! What the invariants do not depend on -/

/-- The invariants say nothing of the ports. -/
theorem invariants_withPorts {s : State} (hi : Invariants s) (cmdIn : List HostInput) (dataIn : List Byte) (plan : List Nat)
    (sink : List Byte) (responses : List Response) :
    Invariants { s with cmdIn := cmdIn, dataIn := dataIn, sinkPlan := plan, sink := sink, responses := responses } := by
  cases hi
  constructor <;> assumption

theorem invariants_answered {s : State} (hi : Invariants s) (acc : Acc) (rdata : Word) : Invariants (answered acc rdata s) :=
  invariants_withPorts hi _ _ _ _ _

theorem invariants_popped {s : State} (hi : Invariants s) (rest : List HostInput) : Invariants (popped s rest) :=
  invariants_withPorts hi _ _ _ _ _

/-- Of CFG they ask the reserved bits only (R28). -/
theorem invariants_withCfg {s : State} (hi : Invariants s) {c : Word} (hc : c.extractLsb' 7 25 = 0) : Invariants { s with cfg := c } := by
  cases hi
  constructor <;> assumption

/-- Of RES they ask the reserved bits only (R33). -/
theorem invariants_withRes {s : State} (hi : Invariants s) {r : Word} (hr : r.extractLsb' 9 23 = 0) : Invariants { s with res := r } := by
  cases hi
  constructor <;> assumption

/-! The part of the invariants that holds inside a CHUNK too -/

/-- The invariants that do not speak of STATUS: the parameter ranges, items 4 and 5 of R48 and the reserved bits. -/
structure Bounded (s : State) : Prop where
  chunkMax : Config.chunkMaxInRange s.pchunk
  wrapBytes : Config.wrapBytesInRange s.pwrap
  pendClear : PendClear s
  lineBound : s.lineBytes.toNat ≤ s.pwrap.toNat
  cfgReserved : s.cfg.extractLsb' 7 25 = 0
  resReserved : s.res.extractLsb' 9 23 = 0

theorem bounded_of_invariants {s : State} (hi : Invariants s) : Bounded s :=
  ⟨hi.chunkMax, hi.wrapBytes, hi.pendClear, hi.lineBound, hi.cfgReserved, hi.resReserved⟩

/-- `Bounded` follows a change of the other registers and of the ports. -/
theorem bounded_of_eq {s t : State} (hb : Bounded s) (hpc : t.pchunk = s.pchunk) (hpw : t.pwrap = s.pwrap) (hcfg : t.cfg = s.cfg)
    (hres : t.res = s.res) (hp : PendClear t) (hl : t.lineBytes.toNat ≤ s.pwrap.toNat) : Bounded t :=
  ⟨hpc ▸ hb.chunkMax, hpw ▸ hb.wrapBytes, hp, hpw ▸ hl, hcfg ▸ hb.cfgReserved, hres ▸ hb.resReserved⟩

theorem bounded_raiseError {s : State} (hb : Bounded s) (kind : ErrKind) (off : Count) (ch : Byte) :
    Bounded (raiseError kind off ch s) :=
  bounded_of_eq hb rfl rfl rfl rfl hb.pendClear hb.lineBound

theorem bounded_delivered {s : State} (hb : Bounded s) (k : Nat) : Bounded (delivered k s) :=
  bounded_of_eq hb rfl rfl rfl rfl hb.pendClear hb.lineBound

@[simp] theorem sessionOf_res (s : State) : (sessionOf s).res = s.res := by unfold sessionOf; split <;> rfl

theorem bounded_session {s : State} (hi : Invariants s) (n : Nat) : Bounded (session n s) :=
  bounded_of_eq (bounded_of_invariants hi) (session_pchunk n s) (session_pwrap n s) (session_cfg n s) (sessionOf_res s)
    (sessionOf_pendClear hi) (sessionOf_lineBytes_le hi)

theorem bounded_decoded {s : State} (hb : Bounded s) (n : Nat) (bs : List Byte) (q : Option Nibble) : Bounded (decoded s n bs q) :=
  bounded_of_eq hb rfl rfl rfl rfl (pendClear_decoded s n bs q) hb.lineBound

theorem lineAt_le {wrap : Bool} {w lb : Word} (hw : 0 < w.toNat) (hlb : lb.toNat ≤ w.toNat) (m : Nat) :
    (lineAt wrap w lb m).toNat ≤ w.toNat := by
  unfold lineAt
  split
  · exact (BitVec.toNat_ofNat .. ▸ Nat.mod_le _ _).trans (lineFill_le hw)
  · exact hlb

theorem bounded_encodedChunk {s : State} (hi : Invariants s) (l : BitVec 24) : Bounded (encodedChunk l s) :=
  bounded_of_eq (bounded_session hi l.toNat) rfl rfl rfl rfl (sessionOf_pendClear hi)
    (session_pwrap l.toNat s ▸ lineAt_le hi.wrapBytes (sessionOf_lineBytes_le hi) _)

theorem bounded_decodedChunk {s : State} (hi : Invariants s) (l : BitVec 24) (bs : List Byte) (q : Option Nibble) :
    Bounded (decodedChunk l s bs q) :=
  bounded_of_eq (bounded_session hi l.toNat) rfl rfl rfl rfl (pendClear_decoded s l.toNat bs q)
    (session_pwrap l.toNat s ▸ sessionOf_lineBytes_le hi)

/-! The three kinds of state a command ends in -/

/-- R132: a state in which an error has just been raised meets the invariants. -/
theorem invariants_of_latched {s : State} (hb : Bounded s) (h : Latched s) : Invariants s := by
  obtain ⟨hstate, herr, hdone, hobuf⟩ := h
  exact { hb with
    errIffError := iff_of_true herr hstate
    doneIdle := by simp [hdone]
    obufEmpty := obuf_eq_nil.2 hobuf
    activeCount := by simp [hstate]
    fresh := by simp [hstate]
    noRecord := by simp [hstate] }

/-- R124: the return from an error meets the invariants, whatever the session registers held. -/
theorem invariants_abortSession {s : State} (hc : Config.chunkMaxInRange s.pchunk) (hw : Config.wrapBytesInRange s.pwrap)
    (hcfg : s.cfg.extractLsb' 7 25 = 0) (hres : s.res.extractLsb' 9 23 = 0) : Invariants (abortSession s) where
  chunkMax := hc
  wrapBytes := hw
  errIffError := by simp
  doneIdle := by simp
  obufEmpty := rfl
  pendClear := by simp
  lineBound := by simp
  activeCount := by simp
  fresh := by simp
  noRecord := by simp
  cfgReserved := hcfg
  resReserved := hres

/-- R49: so does the reset state. -/
theorem invariants_applyReset {s : State} (hi : Invariants s) : Invariants (applyReset s) :=
  invariants_withRes (invariants_withCfg (invariants_abortSession hi.chunkMax hi.wrapBytes hi.cfgReserved hi.resReserved) (by decide))
    (by decide)

/-- What a CHUNK's staging leaves when it has raised nothing: no error, no record, and, when no end of stream is reached, IN_COUNT a
positive multiple of P_CHUNK_MAX (R48 item 6). -/
structure Staged (eos : Bool) (s : State) : Prop where
  bounded : Bounded s
  err : s.status.err = .none
  done : s.status.done = false
  errChar : s.errChar = 0
  errOffset : s.errOffset = 0
  count : eos = false → ∃ q : Nat, 0 < q ∧ s.inCount = BitVec.ofNat 64 (q * s.pchunk.toNat)

theorem staged_delivered {eos : Bool} {s : State} (h : Staged eos s) (k : Nat) : Staged eos (delivered k s) :=
  { h with bounded := bounded_delivered h.bounded k }

/-- R109, R114, R117: the end of a CHUNK that raised nothing meets the invariants. -/
theorem invariants_endChunk {eos : Bool} {s : State} (h : Staged eos s) (hobuf : s.obufRev = []) : Invariants (endChunk eos s) := by
  cases eos with
  | false =>
    exact { h.bounded with
      errIffError := by simp [endChunk, h.err]
      doneIdle := by simp [endChunk, h.done]
      obufEmpty := obuf_eq_nil.2 hobuf
      activeCount := fun _ => h.count rfl
      fresh := by simp [endChunk]
      noRecord := fun _ => ⟨h.errChar, h.errOffset⟩ }
  | true =>
    exact { h.bounded with
      errIffError := by simp [endChunk, h.err]
      doneIdle := by simp [endChunk]
      obufEmpty := obuf_eq_nil.2 hobuf
      activeCount := by simp [endChunk]
      fresh := by simp [endChunk]
      noRecord := fun _ => ⟨h.errChar, h.errOffset⟩ }

/-- R116: the commit keeps the invariants, whatever the sink accepts. -/
theorem invariants_commitChunk {eos : Bool} {s : State} (h : Staged eos s) : Invariants (commitChunk eos s) := by
  rcases (planned_le s s.obuf.length).lt_or_eq with hshort | hfull
  · rw [commitChunk_short eos hshort]
    exact invariants_answered (invariants_of_latched (bounded_raiseError (bounded_delivered h.bounded _) ..)
      (latched_raiseError _ _ _ (by decide))) _ _
  · rw [commitChunk_full eos hfull]
    exact invariants_answered (invariants_endChunk (staged_delivered h _) rfl) _ _

/-! A CHUNK -/

/-- R48 item 6 while a CHUNK is taken: IN_COUNT of the session it works in is a multiple of P_CHUNK_MAX, 0 in a new one. -/
theorem sessionOf_inCount {s : State} (hi : Invariants s) (he : s.status.state ≠ .error) :
    ∃ q : Nat, (sessionOf s).inCount = BitVec.ofNat 64 (q * s.pchunk.toNat) := by
  unfold sessionOf
  split
  · exact ⟨0, by simp⟩
  · rename_i hidle
    have hactive : s.status.state = .active := by
      cases hs : s.status.state <;> simp_all
    obtain ⟨q, -, hq⟩ := hi.activeCount hactive
    exact ⟨q, hq⟩

/-- R48 item 8 while a CHUNK is taken: outside ERROR there is no record. -/
theorem sessionOf_noRecord {s : State} (hi : Invariants s) (he : s.status.state ≠ .error) :
    (sessionOf s).errChar = 0 ∧ (sessionOf s).errOffset = 0 := by
  unfold sessionOf
  split <;> exact hi.noRecord he

/-- A state that agrees with the CHUNK's session on STATUS and the record, with the CHUNK's bytes counted, is ready for the commit. -/
theorem staged_of_session {l : BitVec 24} {s t : State} (hi : Invariants s) (he : s.status.state ≠ .error) (hl : l.toNat ≤ s.pchunk.toNat)
    (hb : Bounded t) (hpc : t.pchunk = s.pchunk) (hst : t.status = (sessionOf s).status) (hch : t.errChar = (sessionOf s).errChar)
    (hoff : t.errOffset = (sessionOf s).errOffset) (hin : t.inCount = (sessionOf s).inCount + BitVec.ofNat 64 l.toNat) :
    Staged (endsStream l t) t := by
  rw [sessionOf_status hi he] at hst
  obtain ⟨hc0, ho0⟩ := sessionOf_noRecord hi he
  refine ⟨hb, by rw [hst], by rw [hst], hch.trans hc0, hoff.trans ho0, fun heos => ?_⟩
  have hfull : l.toNat = s.pchunk.toNat := by
    simp only [endsStream, hpc, decide_eq_false_iff_not] at heos
    omega
  obtain ⟨q, hq⟩ := sessionOf_inCount hi he
  exact ⟨q + 1, q.succ_pos, by rw [hin, hq, hfull, hpc, Nat.succ_mul, BitVec.ofNat_add]⟩

theorem invariants_runChunk {l : BitVec 24} {s : State} (hi : Invariants s) (he : s.status.state ≠ .error)
    (hl : l.toNat ≤ s.pchunk.toNat) (hn : l.toNat ≤ s.dataIn.length) : Invariants (runChunk l s) := by
  unfold runChunk
  obtain ⟨-, h⟩ | ⟨-, bs, q, -, -, h⟩ | ⟨-, kind, off, ch, i, bs, q, hk, -, h⟩ := stageChunk_cases hi hn
  · rw [h]
    exact invariants_commitChunk
      (staged_of_session hi he hl (bounded_encodedChunk hi l) (sessionOf_pchunk s) rfl rfl rfl rfl)
  · rw [h]
    exact invariants_commitChunk
      (staged_of_session hi he hl (bounded_decodedChunk hi l bs q) (sessionOf_pchunk s) rfl rfl rfl rfl)
  · rw [h]
    exact invariants_answered (invariants_of_latched
      (bounded_raiseError (bounded_decoded (bounded_session hi l.toNat) i bs q) ..) (latched_raiseError _ _ _ hk)) _ _

/-! The other commands -/

/-- R33: a result that holds a value leaves the reserved bits of RES 0. -/
theorem resFound_reserved (v : Byte) : (resFound v).extractLsb' 9 23 = 0 := by
  revert v; decide

theorem c2nResult_reserved (s : State) (ch : Byte) : (c2nResult s ch).extractLsb' 9 23 = 0 := by
  unfold c2nResult
  split
  · exact resFound_reserved _
  · decide

/-- R20, R28: an operand of CFG leaves the reserved bits of CFG 0. -/
theorem cfgOperand_reserved (v : BitVec 7) : (v.setWidth 32).extractLsb' 7 25 = 0 := by
  revert v; decide

theorem invariants_raiseIo {s : State} (hi : Invariants s) (k : IoSide) : Invariants (raiseIo k s) := by
  cases k <;>
    exact invariants_of_latched (bounded_raiseError (bounded_of_invariants hi) ..) (latched_raiseError _ _ _ (by decide))

theorem invariants_of_executed {i : Instr} {s t : State} (hi : Invariants s) (h : Executed s i t) : Invariants t := by
  cases h with
  | answer => exact invariants_answered hi _ _
  | cfg v => exact invariants_answered (invariants_withCfg hi (cfgOperand_reserved v)) _ _
  | lutN2c n => exact invariants_answered (invariants_withRes hi (resFound_reserved _)) _ _
  | lutC2n ch => exact invariants_answered (invariants_withRes hi (c2nResult_reserved s ch)) _ _
  | chunk l hlegal hstate hdata => exact invariants_runChunk hi hstate hlegal hdata
  | abort =>
    exact invariants_answered (invariants_abortSession hi.chunkMax hi.wrapBytes hi.cfgReserved hi.resReserved) _ _
  | ioerr k => exact invariants_answered (invariants_raiseIo hi k) _ _

/-- Settles O43: each of the five things a step can do keeps the invariants; a command does, since it ends in an answer to a state in
which an error is latched, a session is fresh, or a CHUNK has ended. -/
theorem stepKeepsInvariants : Obligations.StepKeepsInvariants := by
  intro s t hi h
  obtain ⟨-, rfl⟩ | ⟨rest, -, rfl⟩ | ⟨w, e, rest, -, -, rfl⟩ | ⟨w, l, rest, -, -, -, -, -, rfl⟩ | ⟨w, i, rest, -, -, h⟩ := step_next h
  · exact hi
  · exact invariants_applyReset (invariants_popped hi rest)
  · exact invariants_answered (invariants_popped hi rest) _ _
  · exact invariants_applyReset (invariants_withPorts hi rest [] _ _ _)
  · exact invariants_of_executed (invariants_popped hi rest) (executed_of_exec h)

/-- Settles O42: the reset state is its own return from an error. -/
theorem resetMeetsInvariants : Obligations.ResetMeetsInvariants :=
  invariants_abortSession (s := State.reset) (by decide) (by decide) (by decide) (by decide)

end Sys2Proof.Machine

/-! The bits of CFG that the other direction uses (R22 to R27) have no effect on CHUNK. -/

namespace Sys2Proof.Machine

open Sys2Proof.Safety

/-- `c` and `d` agree on CASE and DIR and on the bits of CFG the direction uses. -/
def SameUse (c d : Word) : Prop :=
  c.getLsbD 0 = d.getLsbD 0 ∧ c.getLsbD 4 = d.getLsbD 4 ∧
    (d.getLsbD 4 = false ∧ c.getLsbD 1 = d.getLsbD 1 ∨
      d.getLsbD 4 = true ∧ c.getLsbD 2 = d.getLsbD 2 ∧ c.getLsbD 3 = d.getLsbD 3 ∧ c.getLsbD 5 = d.getLsbD 5 ∧
        c.getLsbD 6 = d.getLsbD 6)

/-- `s` with CFG at `c`. -/
def setCfg (c : Word) (s : State) : State := { s with cfg := c }

/-- The same end of a part of a CHUNK, with CFG at `c`. -/
def Run.setCfg (c : Word) : Run → Run
  | .going s => .going (Machine.setCfg c s)
  | .raised s => .raised (Machine.setCfg c s)

@[simp] theorem setCfg_going (c : Word) (s : State) : (Run.going s).setCfg c = .going (setCfg c s) := rfl

@[simp] theorem setCfg_raised (c : Word) (s : State) : (Run.raised s).setCfg c = .raised (setCfg c s) := rfl

@[simp] theorem setCfg_pendValid (c : Word) (s : State) : (setCfg c s).pendValid = s.pendValid := rfl

@[simp] theorem setCfg_lastNl (c : Word) (s : State) : (setCfg c s).lastNl = s.lastNl := rfl

@[simp] theorem setCfg_status (c : Word) (s : State) : (setCfg c s).status = s.status := rfl

@[simp] theorem endsStream_setCfg (l : BitVec 24) (c : Word) (s : State) : endsStream l (setCfg c s) = endsStream l s := rfl

@[simp] theorem dataShort_setCfg (l : BitVec 24) (c : Word) (s : State) : dataShort l (setCfg c s) = dataShort l s := rfl

@[simp] theorem fieldsLegal_setCfg (i : Instr) (c : Word) (s : State) : fieldsLegal i (setCfg c s) = fieldsLegal i s := by
  cases i <;> rfl

/-! The fields of CFG after `setCfg`, as far as they agree -/

theorem setCfg_lower {c : Word} {s : State} (h : SameUse c s.cfg) : (setCfg c s).lower = s.lower := h.1

theorem setCfg_decoding {c : Word} {s : State} (h : SameUse c s.cfg) : (setCfg c s).decoding = s.decoding := h.2.1

theorem setCfg_wrap {c : Word} {s : State} (h : SameUse c s.cfg) (hd : s.decoding = false) : (setCfg c s).wrap = s.wrap := by
  obtain ⟨-, -, ⟨-, hwrap⟩ | ⟨hdir, -⟩⟩ := h
  · exact hwrap
  · exact absurd (hd.symm.trans hdir) (by decide)

theorem setCfg_decoderBits {c : Word} {s : State} (h : SameUse c s.cfg) (hd : s.decoding = true) :
    (setCfg c s).strict = s.strict ∧ (setCfg c s).mixed = s.mixed ∧ (setCfg c s).term = s.term ∧
      (setCfg c s).chunkScope = s.chunkScope := by
  obtain ⟨-, -, ⟨hdir, -⟩ | ⟨-, hbits⟩⟩ := h
  · exact absurd (hdir.symm.trans hd) (by decide)
  · exact hbits

/-- A part of a CHUNK that does the same, CFG apart, for every CFG that agrees with the present one, and does not write CFG. -/
def CfgBlind (c : Word) (f : State → Run) : Prop :=
  ∀ s, SameUse c s.cfg → f (setCfg c s) = (f s).setCfg c ∧ (f s).state.cfg = s.cfg

theorem cfgBlind_andThen {c : Word} {f g : State → Run} (hf : CfgBlind c f) (hg : CfgBlind c g) :
    CfgBlind c fun s => (f s).andThen g := by
  intro s h
  obtain ⟨hrun, hcfg⟩ := hf s h
  simp only [hrun]
  cases hfs : f s with
  | raised t => simpa [hfs] using hcfg
  | going t =>
    rw [hfs, state_going] at hcfg
    obtain ⟨hrun', hcfg'⟩ := hg t (hcfg ▸ h)
    exact ⟨hrun', hcfg'.trans hcfg⟩

/-! The parts of a CHUNK -/

theorem encStep_setCfg {c : Word} {s : State} (b : Byte) (h : SameUse c s.cfg) (hd : s.decoding = false) :
    encStep b (setCfg c s) = setCfg c (encStep b s) := by
  have hnl : wrapNewline (setCfg c s) = wrapNewline s := by
    unfold wrapNewline
    rw [setCfg_wrap h hd]
    rfl
  have hline : lineNext (setCfg c s) = lineNext s := by
    unfold lineNext
    rw [setCfg_wrap h hd]
    rfl
  rw [encStep_eq, encStep_eq, hnl, hline, setCfg_lower h]
  rfl

theorem takeDigit_setCfg (c : Word) (v : Nibble) (s : State) : takeDigit v (setCfg c s) = setCfg c (takeDigit v s) := by
  unfold takeDigit
  rw [setCfg_pendValid]
  split <;> rfl

theorem decStep_setCfg {c : Word} {s : State} (ch : Byte) (off : Count) (h : SameUse c s.cfg) (hd : s.decoding = true) :
    decStep ch off (setCfg c s) = (decStep ch off s).setCfg c := by
  obtain ⟨hstrict, hmixed, -, -⟩ := setCfg_decoderBits h hd
  unfold decStep
  rw [hstrict, hmixed, setCfg_lower h]
  split
  · rfl
  · cases c2n s.lower s.mixed ch with
    | none => rfl
    | some v => exact congrArg Run.going (takeDigit_setCfg c v s)

theorem cfgBlind_pipeStep (c : Word) (ch : Byte) : CfgBlind c (pipeStep ch) := by
  refine fun s h => ⟨?_, (kept_pipeStep ch s).cfg⟩
  unfold pipeStep
  rw [setCfg_decoding h]
  cases hd : s.decoding
  · exact congrArg Run.going (encStep_setCfg ch h hd)
  · exact decStep_setCfg ch s.inCount h hd

theorem feed_cons (ch : Byte) (cs : List Byte) (s : State) :
    feed (ch :: cs) s = (pipeStep ch s).andThen fun t => feed cs (countIn t) := by
  rw [feed]
  cases pipeStep ch s <;> rfl

theorem cfgBlind_feed (c : Word) (cs : List Byte) : CfgBlind c (feed cs) := by
  induction cs with
  | nil => exact fun _ _ => ⟨rfl, rfl⟩
  | cons ch cs ih =>
    have hrest : CfgBlind c fun t => feed cs (countIn t) := fun t h => ih (countIn t) h
    rw [funext (feed_cons ch cs)]
    exact cfgBlind_andThen (cfgBlind_pipeStep c ch) hrest

theorem cfgBlind_alignCheck (c : Word) : CfgBlind c alignCheck := by
  refine fun s _ => ⟨?_, (kept_alignCheck s).cfg⟩
  unfold alignCheck
  rw [setCfg_pendValid]
  split <;> rfl

theorem cfgBlind_chunkEndCheck (c : Word) : CfgBlind c chunkEndCheck := by
  refine fun s h => ⟨?_, (kept_chunkEndCheck s).cfg⟩
  unfold chunkEndCheck
  rw [setCfg_decoding h]
  cases hd : s.decoding
  · rfl
  · obtain ⟨-, -, -, hscope⟩ := setCfg_decoderBits h hd
    rw [hscope, (cfgBlind_alignCheck c s h).1]
    split <;> rfl

theorem termNewline_setCfg {c : Word} {s : State} (h : SameUse c s.cfg) (hd : s.decoding = true) :
    termNewline (setCfg c s) = setCfg c (termNewline s) := by
  obtain ⟨-, -, hterm, -⟩ := setCfg_decoderBits h hd
  unfold termNewline
  rw [hterm, setCfg_lastNl]
  split <;> rfl

theorem cfgBlind_finalizeStage (c : Word) : CfgBlind c finalizeStage := by
  refine fun s h => ⟨?_, (kept_finalizeStage s).cfg⟩
  unfold finalizeStage
  rw [setCfg_decoding h]
  cases hd : s.decoding
  · rfl
  · have hkeep := kept_alignCheck s
    simp only [if_true, (cfgBlind_alignCheck c s h).1]
    cases ha : alignCheck s with
    | raised t => rfl
    | going t =>
      rw [ha, state_going] at hkeep
      exact congrArg Run.going (termNewline_setCfg (hkeep.cfg ▸ h) (hkeep.decoding.trans hd))

theorem openIfIdle_setCfg (c : Word) (s : State) : openIfIdle (setCfg c s) = setCfg c (openIfIdle s) := by
  unfold openIfIdle
  rw [setCfg_status]
  split <;> rfl

theorem openIfIdle_cfg (s : State) : (openIfIdle s).cfg = s.cfg :=
  openIfIdle_cases (fun t => t.cfg = s.cfg) rfl rfl

/-- R109: the part of a CHUNK after its chunk-end check. -/
theorem cfgBlind_finalizeAtEnd (c : Word) (l : BitVec 24) :
    CfgBlind c fun t => if endsStream l t then finalizeStage t else .going t := by
  intro t h
  cases hend : endsStream l t
  · simp [hend]
  · simpa [hend] using cfgBlind_finalizeStage c t h

theorem stageChunk_setCfg {c : Word} {s : State} (l : BitVec 24) (h : SameUse c s.cfg) :
    stageChunk l (setCfg c s) = (stageChunk l s).setCfg c := by
  have hopen : openIfIdle (takeData l.toNat (setCfg c s)) = setCfg c (openIfIdle (takeData l.toNat s)) :=
    openIfIdle_setCfg c (takeData l.toNat s)
  have hcfg : (openIfIdle (takeData l.toNat s)).cfg = s.cfg := openIfIdle_cfg (takeData l.toNat s)
  have hblind := cfgBlind_andThen (cfgBlind_andThen (cfgBlind_feed c (s.dataIn.take l.toNat)) (cfgBlind_chunkEndCheck c))
    (cfgBlind_finalizeAtEnd c l)
  unfold stageChunk
  rw [hopen]
  exact (hblind _ (hcfg.symm ▸ h)).1

/-- R116: the commit does not read CFG. -/
theorem commitChunk_setCfg (c : Word) (eos : Bool) (s : State) : commitChunk eos (setCfg c s) = setCfg c (commitChunk eos s) := by
  rcases (planned_le s s.obuf.length).lt_or_eq with hshort | hfull
  · rw [commitChunk_short eos hshort]
    exact commitChunk_short (s := setCfg c s) eos hshort
  · rw [commitChunk_full eos hfull, commitChunk_full (s := setCfg c s) eos hfull]
    cases eos <;> rfl

theorem runChunk_setCfg {c : Word} {s : State} (l : BitVec 24) (h : SameUse c s.cfg) :
    runChunk l (setCfg c s) = setCfg c (runChunk l s) := by
  unfold runChunk
  rw [stageChunk_setCfg l h]
  cases stageChunk l s with
  | raised t => rfl
  | going t => exact commitChunk_setCfg c _ t

theorem exec_chunk_setCfg {c : Word} {s : State} (l : BitVec 24) (h : SameUse c s.cfg) :
    exec (.chunk l) (setCfg c s) = withCfg c (exec (.chunk l) s) := by
  show execChunk l (setCfg c s) = withCfg c (execChunk l s)
  simp only [execChunk, afterChecks, fieldsLegal_setCfg, setCfg_status, dataShort_setCfg, runChunk_setCfg l h]
  cases fieldsLegal (.chunk l) s
  · rfl
  · cases permitted (.chunk l) s.status.state
    · rfl
    · cases dataShort l s <;> rfl

/-- Settles O34: every part of a CHUNK reads only the bits of CFG that the two configurations share, and none writes CFG. -/
theorem unusedConfigurationBits : Obligations.UnusedConfigurationBits :=
  fun l _ _ hcase hdir huse => exec_chunk_setCfg l ⟨hcase, hdir, huse⟩

end Sys2Proof.Machine

/-! What a step leaves unchanged (R20, R33, R42, R45): each statement reads the cases of `Executed`, and of `step_next` around them. -/

namespace Sys2Proof

/-- R68, R71, R72: a word that decodes is the word of its command. -/
theorem encode_of_decode {w : Word} {i : Instr} (h : decode w = .ok i) : encode i = w := by
  have hop : w.toNat / 2 ^ 28 < 8 := by
    by_contra hge
    rw [decode_of_high (Nat.not_lt.1 hge)] at h
    cases h
  obtain ⟨j, hj, hdec⟩ := decode_of_low hop
  rw [hdec] at h
  split at h
  case isFalse => cases h
  case isTrue hlow =>
    cases h
    have hw := Nat.div_add_mod w.toNat (2 ^ 28)
    apply BitVec.eq_of_toNat_eq
    generalize w.toNat / 2 ^ 28 = op at *
    interval_cases op <;> cases hj <;> simp only [operandBits] at hlow
    · show 0 = _
      omega
    · rw [encode_cfg_toNat, BitVec.extractLsb'_toNat]
      omega
    · rw [encode_lutN2c_toNat, BitVec.extractLsb'_toNat]
      omega
    · rw [encode_lutC2n_toNat, BitVec.extractLsb'_toNat]
      omega
    · rw [encode_chunk_toNat, BitVec.extractLsb'_toNat]
      omega
    · show 5 * 2 ^ 28 = _
      omega
    · have hk : (encode (.ioerr (ioSideOf w))).toNat = 6 * 2 ^ 28 + (w.getLsbD 0).toNat := by
        unfold ioSideOf
        cases w.getLsbD 0 <;> decide
      rw [hk, BitVec.getLsbD, Nat.toNat_testBit]
      omega
    · rw [encode_rdreg_toNat, BitVec.extractLsb'_toNat]
      omega

end Sys2Proof

namespace Sys2Proof.Machine

open Sys2Proof.Safety

/-! RES, and the parameters -/

theorem runChunk_res (l : BitVec 24) (s : State) : (runChunk l s).res = s.res := by
  obtain ⟨rdata, u, h, -, -, -, -, -, hres, -⟩ := runChunk_answers l s
  rw [h]
  exact hres

/-- Settles O48: of the effects a command can have, only those of the two lookups write RES. -/
theorem resWrittenByLookupsOnly : Obligations.ResWrittenByLookupsOnly := by
  intro i s t hn2c hc2n h
  cases executed_of_exec h with
  | answer => rfl
  | cfg v => rfl
  | lutN2c n => exact absurd rfl (hn2c n)
  | lutC2n ch => exact absurd rfl (hc2n ch)
  | chunk l => exact runChunk_res l s
  | abort => rfl
  | ioerr k => cases k <;> rfl

/-- Settles O44: by the cases of a step; no command writes a parameter (`exec_answers`), and reset keeps them. -/
theorem parametersNeverChange : Obligations.ParametersNeverChange := by
  intro s t h
  obtain ⟨-, rfl⟩ | ⟨rest, -, rfl⟩ | ⟨w, e, rest, -, -, rfl⟩ | ⟨w, l, rest, -, -, -, -, -, rfl⟩ | ⟨w, i, rest, -, -, h⟩ := step_next h
  · exact ⟨rfl, rfl⟩
  · exact ⟨rfl, rfl⟩
  · exact ⟨rfl, rfl⟩
  · exact ⟨rfl, rfl⟩
  · obtain ⟨acc, rdata, u, rfl, -, hpchunk, hpwrap, -⟩ := exec_answers h
    exact ⟨hpchunk, hpwrap⟩

/-! CFG -/

theorem runChunk_cfg (l : BitVec 24) (s : State) : (runChunk l s).cfg = s.cfg := by
  obtain ⟨rdata, u, h, -, -, -, -, hcfg, -⟩ := runChunk_answers l s
  rw [h]
  exact hcfg

/-- R20, R118: a command that changes CFG is a CFG command in IDLE. -/
theorem cfg_of_executed {i : Instr} {s t : State} (h : Executed s i t) :
    t.cfg = s.cfg ∨ ∃ v, i = .cfg v ∧ s.status.state = .idle ∧ t.cfg = BitVec.ofNat 32 v.toNat := by
  cases h with
  | cfg v hidle => exact .inr ⟨v, rfl, hidle, (BitVec.ofNat_toNat 32 v).symm⟩
  | chunk l => exact .inl (runChunk_cfg l s)
  | ioerr k => cases k <;> exact .inl rfl
  | answer => exact .inl rfl
  | lutN2c n => exact .inl rfl
  | lutC2n ch => exact .inl rfl
  | abort => exact .inl rfl

/-- Settles O46: by the cases of a step. A reset stands first, or second when it cuts a waiting CHUNK. -/
theorem configurationLocked : Obligations.ConfigurationLocked := by
  intro s t h hne
  obtain ⟨-, rfl⟩ | ⟨rest, hin, rfl⟩ | ⟨w, e, rest, -, -, rfl⟩ | ⟨w, l, rest, hin, -, -, -, -, rfl⟩ | ⟨w, i, rest, hin, hdec, h⟩ :=
    step_next h
  · exact absurd rfl hne
  · exact .inr ⟨by simp [hin], rfl⟩
  · exact absurd rfl hne
  · exact .inr ⟨by simp [hin], rfl⟩
  · obtain hsame | ⟨v, rfl, hidle, hcfg⟩ := cfg_of_executed (executed_of_exec h)
    · exact absurd hsame hne
    · exact .inl ⟨v, rest, by rw [hin, encode_of_decode hdec], hidle, hcfg⟩

/-! SINK -/

theorem stageChunk_sink (l : BitVec 24) (s : State) : (stageChunk l s).state.sink = s.sink :=
  (kept_stageChunk l s).sink.trans (openIfIdle_cases (fun t => t.sink = s.sink) rfl rfl)

/-- R116: SINK gains the part of OBUF the sink accepts. -/
theorem commitChunk_sink (eos : Bool) (s : State) :
    (commitChunk eos s).sink = s.sink ++ s.obuf.take (planned s s.obuf.length) := by
  rcases (planned_le s s.obuf.length).lt_or_eq with hshort | hfull
  · rw [commitChunk_short eos hshort]
    rfl
  · rw [commitChunk_full eos hfull, hfull]
    cases eos <;> rfl

/-- R12, R45, R62: a CHUNK appends to SINK at most what it has staged, fewer than OBUF_CAP bytes. -/
theorem runChunk_sink {l : BitVec 24} {s : State} (hi : Invariants s) (hl : l.toNat ≤ s.pchunk.toNat) (hn : l.toNat ≤ s.dataIn.length) :
    ∃ d, (runChunk l s).sink = s.sink ++ d ∧ d.length ≤ obufCap s := by
  have hsink := stageChunk_sink l s
  unfold runChunk
  cases hst : stageChunk l s with
  | raised t =>
    rw [hst] at hsink
    exact ⟨[], (List.append_nil s.sink).symm ▸ hsink, Nat.zero_le _⟩
  | going t =>
    rw [hst, state_going] at hsink
    refine ⟨t.obuf.take (planned t t.obuf.length), ?_, ?_⟩
    · rw [← hsink]
      exact commitChunk_sink _ t
    · exact (List.length_take_le' _ _).trans (stageChunk_obuf_length_lt hi hl hn hst).le

/-- R45: a command that writes SINK is a CHUNK that has run. -/
theorem sink_of_executed {i : Instr} {s t : State} (h : Executed s i t) :
    t.sink = s.sink ∨
      ∃ l, i = .chunk l ∧ l.toNat ≤ s.pchunk.toNat ∧ s.status.state ≠ .error ∧ l.toNat ≤ s.dataIn.length ∧ t = runChunk l s := by
  cases h with
  | chunk l hlegal hstate hdata => exact .inr ⟨l, rfl, hlegal, hstate, hdata, rfl⟩
  | ioerr k => cases k <;> exact .inl rfl
  | answer => exact .inl rfl
  | cfg v => exact .inl rfl
  | lutN2c n => exact .inl rfl
  | lutC2n ch => exact .inl rfl
  | abort => exact .inl rfl

/-- R45: a step that writes SINK takes a CHUNK and runs it. -/
theorem sink_of_step {s t : State} (h : step s = .next t) :
    t.sink = s.sink ∨
      ∃ l rest, s.cmdIn = .word (encode (.chunk l)) :: rest ∧ l.toNat ≤ s.pchunk.toNat ∧ s.status.state ≠ .error ∧
        l.toNat ≤ s.dataIn.length ∧ t = runChunk l (popped s rest) := by
  obtain ⟨-, rfl⟩ | ⟨rest, -, rfl⟩ | ⟨w, e, rest, -, -, rfl⟩ | ⟨w, l, rest, -, -, -, -, -, rfl⟩ | ⟨w, i, rest, hin, hdec, h⟩ := step_next h
  · exact .inl rfl
  · exact .inl rfl
  · exact .inl rfl
  · exact .inl rfl
  · obtain hsame | ⟨l, rfl, hlegal, hstate, hdata, ht⟩ := sink_of_executed (executed_of_exec h)
    · exact .inl hsame
    · exact .inr ⟨l, rest, by rw [hin, encode_of_decode hdec], hlegal, hstate, hdata, ht⟩

/-- Settles O45: a step that writes SINK runs a CHUNK, which appends what the sink accepts of a bounded OBUF. -/
theorem sinkOnlyGrows : Obligations.SinkOnlyGrows := by
  intro s t hi h
  obtain hsame | ⟨l, rest, hin, hlegal, hstate, hdata, rfl⟩ := sink_of_step h
  · exact ⟨[], (List.append_nil s.sink).symm ▸ hsame, Nat.zero_le _, fun hne => absurd rfl hne⟩
  · obtain ⟨d, hsink, hlen⟩ := runChunk_sink (invariants_popped hi rest) hlegal hdata
    exact ⟨d, hsink, hlen, fun _ => ⟨l, rest, hin, hstate⟩⟩

/-! Reset, and the response word -/

/-- Settles O9: reset is defined register by register (`applyReset_eq`). -/
theorem resetRestoresRegisters : Obligations.ResetRestoresRegisters := applyReset_eq

/-- Two fields side by side: the low one in `k` bits, the other above it. -/
theorem or_shiftLeft_toNat {a b : Word} (k : Nat) (ha : a.toNat < 2 ^ k) (hb : 2 ^ k * b.toNat < 2 ^ 32) :
    (a ||| (b <<< k)).toNat = a.toNat + 2 ^ k * b.toNat := by
  rw [BitVec.toNat_or, BitVec.toNat_shiftLeft, Nat.shiftLeft_eq, Nat.mul_comm, Nat.mod_eq_of_lt hb, Nat.or_comm,
    ← Nat.two_pow_add_eq_or_of_lt ha, Nat.add_comm]

theorem sessionState_code_toNat (st : SessionState) : st.code.toNat = stateNumber st ∧ stateNumber st < 2 ^ 2 := by
  cases st <;> decide

theorem errKind_code_toNat (e : ErrKind) : e.code.toNat = errNumber e ∧ errNumber e < 2 ^ 3 := by
  cases e <;> decide

theorem acc_code_toNat (acc : Acc) : acc.code.toNat = accNumber acc ∧ accNumber acc < 2 ^ 2 := by
  cases acc <;> decide

theorem bit_toNat (b : Bool) : (bit b).toNat = b.toNat ∧ b.toNat < 2 := by
  cases b <;> decide

/-- R29: the register STATUS as a number. -/
theorem status_word_toNat (st : Status) : st.word.toNat = statusNumber st ∧ statusNumber st < 2 ^ 6 := by
  obtain ⟨hstate, hstate'⟩ := sessionState_code_toNat st.state
  obtain ⟨herr, herr'⟩ := errKind_code_toNat st.err
  obtain ⟨hdone, hdone'⟩ := bit_toNat st.done
  have hlow : (st.state.code ||| (st.err.code <<< 2)).toNat = stateNumber st.state + 2 ^ 2 * errNumber st.err := by
    rw [or_shiftLeft_toNat 2 (by omega) (by omega), hstate, herr]
  unfold Status.word statusNumber
  rw [or_shiftLeft_toNat 5 (by omega) (by omega), hlow, hdone]
  omega

/-- R76: RSP as a number. -/
theorem rspWord_toNat (acc : Acc) (st : Status) : (rspWord acc st).toNat = accNumber acc + 4 * statusNumber st := by
  obtain ⟨hacc, hacc'⟩ := acc_code_toNat acc
  obtain ⟨hst, hst'⟩ := status_word_toNat st
  unfold rspWord
  rw [or_shiftLeft_toNat 2 (by omega) (by omega), hacc, hst]
  rfl

/-- Settles O14: STATUS is three fields side by side, and RSP is ACC with STATUS above it. -/
theorem responseWordLayout : Obligations.ResponseWordLayout :=
  fun acc st => ⟨rspWord_toNat acc st, status_word_toNat st⟩

end Sys2Proof.Machine

/-! A step that takes a command word (R9, R61, R75): the word's command is executed, whatever follows it, unless a reset cuts it. -/

namespace Sys2Proof.Machine

open Sys2Proof.Safety

theorem step_of_word {s : State} {w : Word} {rest : List HostInput} (h : s.cmdIn = .word w :: rest) :
    step s = runWord w (popped s rest) := by
  rw [← dropInput_eq_popped h]
  unfold step
  rw [h]

/-- R143, R148: no reset cuts a command that does not wait, or behind which no reset stands. -/
theorem resetCuts_eq_none {i : Instr} {s : State} (h : s.cmdIn.head? ≠ some .reset ∨ awaitsData i s = false) :
    resetCuts i s = none := by
  obtain hhead | hwait := h
  · simp [resetCuts, hhead]
  · simp [resetCuts, hwait]

/-- R75: the word of a command that no reset cuts is executed. -/
theorem runWord_of_decode {w : Word} {i : Instr} {s : State} (hdec : decode w = .ok i) (hcut : resetCuts i s = none) :
    runWord w s = exec i s := by
  unfold runWord
  simp only [hdec, hcut]

/-- R148: a command does not wait when, if it is a CHUNK, it is refused or has its data. -/
theorem awaitsData_eq_false {i : Instr} {s : State}
    (h : ∀ l, i = .chunk l → s.pchunk.toNat < l.toNat ∨ s.status.state = .error ∨ l.toNat ≤ s.dataIn.length) :
    awaitsData i s = false := by
  rw [← Bool.not_eq_true, awaitsData_iff]
  rintro ⟨l, hi, hlegal, hstate, hshort⟩
  obtain hlong | herror | hdata := h l hi
  · exact absurd hlegal (Nat.not_le.2 hlong)
  · exact hstate herror
  · exact absurd hdata (Nat.not_le.2 hshort)

/-- Settles O7: with no reset behind it, or as a command that does not wait, the word's command is not cut, so it is executed. -/
theorem stepRunsDecodedCommand : Obligations.StepRunsDecodedCommand := by
  intro s w rest i hin hdec huncut
  rw [step_of_word hin]
  exact runWord_of_decode hdec (resetCuts_eq_none (huncut.imp_right fun h => awaitsData_eq_false (s := popped s rest) h))

/-! The word `withFetchWord` places (R51, R78) -/

theorem decodeTableWord_eq_some {nbits w : Nat} {i : Instr} :
    decodeTableWord nbits w = some i ↔ decode (tableWord nbits w) = .ok i := by
  unfold decodeTableWord
  cases decode (tableWord nbits w) <;> simp

theorem popped_placeCommand (w : Word) (s : State) :
    popped (placeCommand w s) s.cmdIn = { s with dataIn := trailerOf w s ++ s.dataIn } := rfl

/-- Settles O50: the word placed in the reset state stands alone on the command port, so no reset cuts its command, and taking it leaves
the data bytes placed with it. -/
theorem placedCommandRunsNext : Obligations.PlacedCommandRunsNext := by
  intro nbits w i hdec
  have hrun := stepRunsDecodedCommand (State.reset.withFetchWord nbits w) (tableWord nbits w) State.reset.cmdIn i rfl
    (decodeTableWord_eq_some.1 hdec) (.inl (by decide))
  have hdata : trailerOf (tableWord nbits w) State.reset ++ State.reset.dataIn = trailerOf (tableWord nbits w) State.reset :=
    List.append_nil _
  rw [hrun, State.withFetchWord, popped_placeCommand, hdata]

end Sys2Proof.Machine

/-! Words and commands (R67, R68, R70 to R73): a command's word is its opcode above its operand, and decoding undoes encoding. -/

namespace Sys2Proof

open Laws.Opcode (number)

/-- The operand field of a command as a number (R68, R70); 0 for a command without one. -/
def operand : Instr → Nat
  | .nop => 0
  | .cfg v => v.toNat
  | .lutN2c n => n.toNat
  | .lutC2n ch => ch.toNat
  | .chunk l => l.toNat
  | .abort => 0
  | .ioerr k => (ioBit k).toNat
  | .rdreg idx => idx.toNat

theorem number_lt (i : Instr) : number i < 8 := by
  cases i <;> simp [number]

/-- Every operand stands below the opcode (R68). -/
theorem operandBits_le (op : Nat) : operandBits op ≤ 28 := by
  unfold operandBits
  split <;> decide

theorem operand_lt (i : Instr) : operand i < 2 ^ operandBits (number i) := by
  cases i with
  | nop => decide
  | cfg v => exact v.isLt
  | lutN2c n => exact n.isLt
  | lutC2n ch => exact ch.isLt
  | chunk l => exact l.isLt
  | abort => decide
  | ioerr k => exact (ioBit k).isLt
  | rdreg idx => exact idx.isLt

theorem operand_lt_opcode (i : Instr) : operand i < 2 ^ 28 :=
  (operand_lt i).trans_le (Nat.pow_le_pow_right two_pos (operandBits_le _))

/-- R68: the word of a command as a number. -/
theorem encode_toNat (i : Instr) : (encode i).toNat = number i * 2 ^ 28 + operand i := by
  cases i with
  | nop => rfl
  | cfg v => exact encode_cfg_toNat v
  | lutN2c n => exact encode_lutN2c_toNat n
  | lutC2n ch => exact encode_lutC2n_toNat ch
  | chunk l => exact encode_chunk_toNat l
  | abort => rfl
  | ioerr k => cases k <;> rfl
  | rdreg idx => exact encode_rdreg_toNat idx

theorem encode_div (i : Instr) : (encode i).toNat / 2 ^ 28 = number i := by
  have := operand_lt_opcode i
  rw [encode_toNat]
  omega

theorem encode_mod (i : Instr) : (encode i).toNat % 2 ^ 28 = operand i := by
  have := operand_lt_opcode i
  rw [encode_toNat]
  omega

/-- The operand lies in the low bits its format gives it (R68, R70). -/
theorem encode_mod_operandBits (i : Instr) : (encode i).toNat % 2 ^ operandBits (number i) = operand i := by
  have hdvd : 2 ^ operandBits (number i) ∣ 2 ^ 28 := Nat.pow_dvd_pow 2 (operandBits_le _)
  rw [← Nat.mod_mod_of_dvd _ hdvd, encode_mod, Nat.mod_eq_of_lt (operand_lt i)]

/-- A field of the low `k` bits holds what the word is modulo 2^k. -/
theorem extractLsb'_eq_of_mod {w : Word} {k : Nat} {v : BitVec k} (h : w.toNat % 2 ^ k = v.toNat) : w.extractLsb' 0 k = v :=
  BitVec.eq_of_toNat_eq (by rw [BitVec.extractLsb'_toNat, Nat.shiftRight_zero, h])

/-- The decoder takes each operand from where the encoder puts it. -/
theorem operandsOf_encode (i : Instr) : operandsOf (number i) (encode i) = some i := by
  have hlow := encode_mod_operandBits i
  cases i with
  | nop => rfl
  | cfg v => exact congrArg (some ∘ Instr.cfg) (extractLsb'_eq_of_mod hlow)
  | lutN2c n => exact congrArg (some ∘ Instr.lutN2c) (extractLsb'_eq_of_mod hlow)
  | lutC2n ch => exact congrArg (some ∘ Instr.lutC2n) (extractLsb'_eq_of_mod hlow)
  | chunk l => exact congrArg (some ∘ Instr.chunk) (extractLsb'_eq_of_mod hlow)
  | abort => rfl
  | ioerr k => cases k <;> rfl
  | rdreg idx => exact congrArg (some ∘ Instr.rdreg) (extractLsb'_eq_of_mod hlow)

/-- Settles O1: the word's opcode is the command's, its operand leaves the reserved bits 0, and the decoder reads that operand back. -/
theorem decodeOfEncode : Obligations.DecodeOfEncode := by
  intro i
  obtain ⟨j, hj, hdec⟩ := decode_of_low (w := encode i) ((encode_div i).symm ▸ number_lt i)
  rw [encode_div, operandsOf_encode] at hj
  rw [hdec, encode_div, encode_mod, if_pos (operand_lt i), Option.some.inj hj]

/-- Settles O2, by the opcode of the word. -/
theorem encodeOfDecode : Obligations.EncodeOfDecode := fun _ _ => encode_of_decode

/-- R68, R71, R72: a command has exactly one word. -/
theorem decode_eq_ok_iff {w : Word} {i : Instr} : decode w = .ok i ↔ encode i = w :=
  ⟨encode_of_decode, fun h => h ▸ decodeOfEncode i⟩

/-- Settles O3: each of the eight words is the word of its command. -/
theorem decodesSpecWords : Obligations.DecodesSpecWords := by
  unfold Obligations.DecodesSpecWords
  simp only [decode_eq_ok_iff]
  decide

/-! The opcode map -/

/-- R71: a word decodes to a command of an opcode exactly when it selects the opcode's row. -/
theorem decode_selects_row_iff {op : Nat} {row : Row} (hrow : rowOf op = some row) (w : Word) :
    (∃ i, decode w = .ok i ∧ number i = op) ↔ w &&& row.mask = row.code := by
  obtain ⟨hmask, hcode, hop⟩ := rowOf_form hrow
  rw [and_highMask_eq_iff _ hmask, hcode]
  constructor
  · rintro ⟨i, hdec, rfl⟩
    have hlt := operand_lt i
    rw [← encode_of_decode hdec, encode_toNat]
    generalize operand i = n at *
    generalize number i = op at *
    interval_cases op <;> simp only [operandBits] at * <;> omega
  · intro hsel
    obtain ⟨hdiv, hlow⟩ : w.toNat / 2 ^ 28 = op ∧ w.toNat % 2 ^ 28 < 2 ^ operandBits op := by
      interval_cases op <;> simp only [operandBits] at * <;> omega
    obtain ⟨i, hi, hdec⟩ := decode_of_low (hdiv.symm ▸ hop)
    rw [hdiv, if_pos hlow] at hdec
    exact ⟨i, hdec, by rw [← encode_div, encode_of_decode hdec, hdiv]⟩

/-- The same for the constructor `f` that has the row's opcode, with its operand. -/
theorem decode_constructor_iff {α : Type} {f : α → Instr} {op : Nat} {row : Row} (hrow : rowOf op = some row)
    (hf : ∀ i, number i = op ↔ ∃ a, i = f a) (w : Word) : (∃ a, decode w = .ok (f a)) ↔ w &&& row.mask = row.code := by
  simp only [← decode_selects_row_iff hrow w, hf]
  exact ⟨fun ⟨a, h⟩ => ⟨f a, h, a, rfl⟩, fun ⟨_, h, a, hi⟩ => ⟨a, hi ▸ h⟩⟩

/-- The same for a command without an operand. -/
theorem decode_constant_iff {i : Instr} {op : Nat} {row : Row} (hrow : rowOf op = some row) (hi : ∀ j, number j = op ↔ j = i) (w : Word) :
    decode w = .ok i ↔ w &&& row.mask = row.code := by
  simpa using decode_constructor_iff (f := fun _ : Unit => i) hrow (by simpa using hi) w

/-- Settles O4: each opcode is the number of one constructor, so each clause is the rule of its opcode's row. -/
theorem decodeFollowsOpcodeMap : Obligations.DecodeFollowsOpcodeMap := by
  intro w
  refine ⟨decode_constant_iff (op := 0) rfl ?_ w, decode_constructor_iff (op := 1) rfl ?_ w, decode_constructor_iff (op := 2) rfl ?_ w,
    decode_constructor_iff (op := 3) rfl ?_ w, decode_constructor_iff (op := 4) rfl ?_ w, decode_constant_iff (op := 5) rfl ?_ w,
    decode_constructor_iff (op := 6) rfl ?_ w, decode_constructor_iff (op := 7) rfl ?_ w⟩ <;>
  · intro i
    cases i <;> simp [number]

/-! Operands -/

/-- R68, R70: the operand of a decoded command is the low field of the word. -/
theorem operand_of_decode {w : Word} {i : Instr} (h : decode w = .ok i) : operand i = w.toNat % 2 ^ operandBits (number i) := by
  rw [← encode_mod_operandBits, encode_of_decode h]

theorem ioBit_eq_one_iff (k : IoSide) : k = .write ↔ (ioBit k).toNat = 1 := by
  cases k <;> decide

/-- Settles O5: each clause is `operand_of_decode` at its constructor. -/
theorem operandsReadFromWord : Obligations.OperandsReadFromWord :=
  fun _ => ⟨fun _ => operand_of_decode, fun _ => operand_of_decode, fun _ => operand_of_decode, fun _ => operand_of_decode,
    fun k h => (ioBit_eq_one_iff k).trans (Eq.congr_left (operand_of_decode h)), fun _ => operand_of_decode⟩

/-! Words of no command -/

/-- R72, R73: a word with a reserved opcode or a reserved bit set is no command. -/
theorem decode_isError {w : Word} (h : 8 ≤ w.toNat / 2 ^ 28 ∨ 2 ^ operandBits (w.toNat / 2 ^ 28) ≤ w.toNat % 2 ^ 28) :
    ∃ e, decode w = .error e := by
  rcases Nat.lt_or_ge (w.toNat / 2 ^ 28) 8 with hlow | hhigh
  · obtain ⟨i, -, hdec⟩ := decode_of_low hlow
    exact ⟨_, hdec.trans (if_neg (Nat.not_lt.2 (h.resolve_left (Nat.not_le.2 hlow))))⟩
  · exact ⟨_, decode_of_high hhigh⟩

end Sys2Proof

/-! What a word is answered (R72 to R76). -/

namespace Sys2Proof.Machine

open Sys2Proof.Safety

/-- R121: a word that is no command is refused. -/
theorem step_of_decode_error {s : State} {w : Word} {e : Reject} {rest : List HostInput} (hin : s.cmdIn = .word w :: rest)
    (hdec : decode w = .error e) : step s = .next (answered .rejIllegal 0 (popped s rest)) := by
  rw [step_of_word hin]
  unfold runWord
  simp only [hdec, rejectIllegal_eq_answered]

/-- Settles O6: the reserved bits of each format are those between its opcode and its operand, and such a word decodes to no command. -/
theorem illegalWordRefused : Obligations.IllegalWordRefused := by
  intro s w rest hin h
  have hillegal : 8 ≤ w.toNat / 2 ^ 28 ∨ 2 ^ operandBits (w.toNat / 2 ^ 28) ≤ w.toNat % 2 ^ 28 := by
    generalize w.toNat / 2 ^ 28 = op at *
    by_contra! hlegal
    obtain ⟨hop, hlow⟩ := hlegal
    interval_cases op <;> simp only [operandBits] at hlow <;> omega
  obtain ⟨e, hdec⟩ := decode_isError hillegal
  exact step_of_decode_error hin hdec

/-- Settles O13: a word of no command is refused with a response, and any other word's command is executed and answers
(`exec_answers`). -/
theorem oneResponsePerWord : Obligations.OneResponsePerWord := by
  intro s t w rest hin huncut hstep
  cases hdec : decode w with
  | error e =>
    cases (step_of_decode_error hin hdec).symm.trans hstep
    exact ⟨_, _, rfl⟩
  | ok i =>
    have hrun := stepRunsDecodedCommand s w rest i hin hdec (huncut.imp_right fun h l hl => h l (hl ▸ hdec))
    obtain ⟨acc, rdata, u, rfl, hresp, -⟩ := exec_answers (hrun.symm.trans hstep)
    exact ⟨acc, rdata, congrArg (· ++ _) hresp⟩

/-! Illegal field values (R74) -/

theorem accNumber_inj {a b : Acc} : accNumber a = accNumber b ↔ a = b := by
  cases a <;> cases b <;> decide

/-- R76, R77: RSP determines ACC. -/
theorem acc_of_rspWord_eq {a b : Acc} {st st' : Status} (h : rspWord a st = rspWord b st') : a = b := by
  have hword := congrArg BitVec.toNat h
  rw [rspWord_toNat, rspWord_toNat] at hword
  have ha := (acc_code_toNat a).2
  have hb := (acc_code_toNat b).2
  exact accNumber_inj.1 (by omega)

/-- Two states that answer alike after the same responses answer with the same ACC. -/
theorem acc_of_answered_eq {a b : Acc} {q r : Word} {s u : State} (hresp : u.responses = s.responses)
    (h : answered a q u = answered b r s) : a = b := by
  have hlist : u.responses ++ [⟨rspWord a u.status, q⟩] = s.responses ++ [⟨rspWord b s.status, r⟩] := congrArg State.responses h
  rw [hresp, List.append_cancel_left_eq] at hlist
  exact acc_of_rspWord_eq (congrArg Response.rsp (List.cons.inj hlist).1)

/-- R74, R75: a command with legal field values does not answer REJ_ILLEGAL. -/
theorem exec_of_legal_ne {i : Instr} {s t : State} (hl : fieldsLegal i s = true) (h : exec i s = .next t) :
    t ≠ answered .rejIllegal 0 s := by
  rintro rfl
  cases hp : permitted i s.status.state with
  | false =>
    rw [exec_of_not_permitted hl hp] at h
    cases acc_of_answered_eq rfl (Host.Outcome.next.inj h)
  | true =>
    rw [exec_of_permitted hl hp] at h
    obtain ⟨rdata, u, ht, hresp, -⟩ := effect_next hl h
    cases acc_of_answered_eq hresp ht.symm

/-- R74: legal is everything but an L above P_CHUNK_MAX and an IDX above 14. -/
theorem fieldsLegal_iff {i : Instr} {s : State} :
    fieldsLegal i s = true ↔ (∀ l, i = .chunk l → l.toNat ≤ s.pchunk.toNat) ∧ ∀ idx, i = .rdreg idx → idx.toNat ≤ 14 := by
  cases i <;> simp [fieldsLegal]

/-- Settles O15: an illegal field value is refused before anything else (`exec_of_illegal`), and a legal one never. -/
theorem illegalFieldRefused : Obligations.IllegalFieldRefused :=
  ⟨fun _ _ h => exec_of_illegal (decide_eq_false (Nat.not_le.2 h)), fun _ _ h => exec_of_illegal (decide_eq_false (Nat.not_le.2 h)),
    fun _ _ _ hl hidx h => exec_of_legal_ne (fieldsLegal_iff.2 ⟨hl, hidx⟩) h⟩

end Sys2Proof.Machine

/-! R80: the encoder's text, line by line. -/

namespace Sys2Proof.Machine

open Sys2Proof.Safety

/-- R80: LINE(j), the digits of the bytes jW to min(n, (j+1)W) - 1, and the newline after it. -/
def encodedLine (lower : Bool) (w : Nat) (bs : List Byte) (j : Nat) : List Byte :=
  ((bs.drop (j * w)).take w).flatMap (hexPair lower) ++ [newline]

/-- A line's digits are the first line of the bytes still to come. -/
theorem encodedLine_succ (lower : Bool) (w : Nat) (bs : List Byte) (j : Nat) :
    encodedLine lower w bs (j + 1) = encodedLine lower w (bs.drop w) j := by
  simp only [encodedLine, List.drop_drop, Nat.succ_mul, Nat.add_comm w]

/-- R92: bytes that fit on the line get no newline between them. -/
theorem encodeFrom_on_line (lower : Bool) {w off : Nat} {bs : List Byte} (h : off + bs.length ≤ w) :
    encodeFrom true lower w off bs = bs.flatMap (hexPair lower) := by
  induction bs generalizing off with
  | nil => rfl
  | cons b bs ih =>
    rw [List.length_cons] at h
    have hmid : ¬ (0 < off ∧ off % w = 0) := by
      rw [Nat.mod_eq_of_lt (by omega)]
      omega
    simp [encodeFrom, hmid, ih (off := off + 1) (by omega)]

/-- R92, R93: after a full line the next byte begins with a newline and goes on as at the start of a session. -/
theorem encodeFrom_next_line (lower : Bool) {w : Nat} (hw : 0 < w) {bs : List Byte} (hbs : bs ≠ []) :
    encodeFrom true lower w w bs = newline :: encodeFrom true lower w 0 bs := by
  cases bs with
  | nil => exact absurd rfl hbs
  | cons b bs =>
    have hrest : encodeFrom true lower w (w + 1) bs = encodeFrom true lower w (0 + 1) bs :=
      encodeFrom_congr true lower w bs w.succ_pos one_pos (by simp)
    simp [encodeFrom, hw, hrest]

/-- The first line of a text that has more. -/
theorem encodeText_first_line (lower : Bool) {w : Nat} (hw : 0 < w) {bs : List Byte} (h : w < bs.length) :
    encodeText true lower w bs = encodedLine lower w bs 0 ++ encodeText true lower w (bs.drop w) := by
  have hlen : (bs.take w).length = w := List.length_take_of_le h.le
  have hne : bs.drop w ≠ [] := by simpa using h
  unfold encodeText
  conv_lhs => rw [← List.take_append_drop w bs]
  rw [encodeFrom_append, hlen, Nat.zero_add, encodeFrom_next_line lower hw hne, encodeFrom_on_line lower (by omega)]
  simp [encodedLine]

/-- A text of at most one line. -/
theorem encodeText_single_line (lower : Bool) {w : Nat} {bs : List Byte} (h : bs.length ≤ w) :
    encodeText true lower w bs ++ [newline] = encodedLine lower w bs 0 := by
  unfold encodeText
  rw [encodeFrom_on_line lower (by omega)]
  simp [encodedLine, List.take_of_length_le h]

/-- R80: a wrapped text is its ceil(n / W) lines. -/
theorem encodeText_eq_lines (lower : Bool) {w : Nat} (hw : 0 < w) (bs : List Byte) (hbs : bs ≠ []) :
    encodeText true lower w bs ++ [newline] = (List.range ((bs.length + w - 1) / w)).flatMap (encodedLine lower w bs) := by
  induction hn : bs.length using Nat.strong_induction_on generalizing bs with
  | _ n ih =>
    subst hn
    have hpos : 0 < bs.length := List.length_pos_iff.2 hbs
    rcases Nat.lt_or_ge w bs.length with hmore | hlast
    · have hcount : (bs.length + w - 1) / w = ((bs.drop w).length + w - 1) / w + 1 := by
        rw [List.length_drop, ← Nat.add_div_right _ hw]
        congr 1
        omega
      have hrest := ih (bs.drop w).length (by rw [List.length_drop]; omega) (bs.drop w) (by simpa using hmore) rfl
      rw [encodeText_first_line lower hw hmore, List.append_assoc, hrest, hcount, List.range_succ_eq_map, List.flatMap_cons,
        List.flatMap_map]
      simp only [encodedLine_succ]
    · have hcount : (bs.length + w - 1) / w = 1 := by
        apply Nat.div_eq_of_lt_le <;> omega
      rw [encodeText_single_line lower hlast, hcount]
      simp

/-- Settles O35: unwrapped, no newline is staged (`encodeFrom_unwrapped`); wrapped, by induction over the lines. -/
theorem encodedTextIsLines : Obligations.EncodedTextIsLines :=
  ⟨fun lower w bs => congrArg (· ++ [newline]) (encodeFrom_unwrapped lower w 0 bs),
    fun lower _ bs hw hbs => encodeText_eq_lines lower hw bs hbs, fun _ _ => rfl⟩

end Sys2Proof.Machine

/-! The table in numbers (R84, R85). -/

namespace Sys2Proof.Machine

open Sys2Proof.Safety

/-- R84: N2C as a number. -/
theorem n2c_toNat (lower : Bool) (n : Nibble) :
    (n2c lower n).toNat =
      if n.toNat ≤ 9 then 0x30 + n.toNat
      else if lower = true then 0x61 + (n.toNat - 10)
      else 0x41 + (n.toNat - 10) := by
  unfold n2c
  split_ifs <;> bv_omega

/-- R85: C2N as a number. -/
theorem c2n_map_toNat (lower mixed : Bool) (c : Byte) :
    (c2n lower mixed c).map BitVec.toNat =
      if 0x30 ≤ c.toNat ∧ c.toNat ≤ 0x39 then some (c.toNat - 0x30)
      else if 0x41 ≤ c.toNat ∧ c.toNat ≤ 0x46 ∧ (lower = false ∨ mixed = true) then some (c.toNat - 0x41 + 10)
      else if 0x61 ≤ c.toNat ∧ c.toNat ≤ 0x66 ∧ (lower = true ∨ mixed = true) then some (c.toNat - 0x61 + 10)
      else none := by
  unfold c2n
  split_ifs with hdigit hupper hlower
  · exact congrArg some (by bv_omega)
  · exact congrArg some (by bv_omega)
  · exact congrArg some (by bv_omega)
  · rfl

/-- R85: the three ranges of characters that have a nibble. -/
theorem c2n_eq_some {lower mixed : Bool} {c : Byte} {v : Nibble} (h : c2n lower mixed c = some v) :
    (0x30 ≤ c.toNat ∧ c.toNat ≤ 0x39 ∧ v.toNat = c.toNat - 0x30) ∨
      (0x41 ≤ c.toNat ∧ c.toNat ≤ 0x46 ∧ (lower = false ∨ mixed = true) ∧ v.toNat = c.toNat - 0x41 + 10) ∨
      (0x61 ≤ c.toNat ∧ c.toNat ≤ 0x66 ∧ (lower = true ∨ mixed = true) ∧ v.toNat = c.toNat - 0x61 + 10) := by
  have hnum := c2n_map_toNat lower mixed c
  rw [h, Option.map_some] at hnum
  split_ifs at hnum with hdigit hupper hlower
  · exact .inl ⟨hdigit.1, hdigit.2, Option.some.inj hnum⟩
  · exact .inr (.inl ⟨hupper.1, hupper.2.1, hupper.2.2, Option.some.inj hnum⟩)
  · exact .inr (.inr ⟨hlower.1, hlower.2.1, hlower.2.2, Option.some.inj hnum⟩)

/-- R87 item 3 as a number. -/
theorem normalise_toNat (lower : Bool) (c : Byte) :
    (normalise lower c).toNat =
      if lower = true ∧ 0x41 ≤ c.toNat ∧ c.toNat ≤ 0x46 then c.toNat + 0x20
      else if lower = false ∧ 0x61 ≤ c.toNat ∧ c.toNat ≤ 0x66 then c.toNat - 0x20
      else c.toNat := by
  unfold normalise
  split_ifs <;> bv_omega

/-! The laws of the table (R87) -/

/-- R87 item 1. -/
theorem c2n_n2c (lower mixed : Bool) (n : Nibble) : c2n lower mixed (n2c lower n) = some n := by
  have hn := n.isLt
  apply Option.map_injective fun _ _ => BitVec.eq_of_toNat_eq
  rw [c2n_map_toNat, n2c_toNat, Option.map_some]
  by_cases hdigit : n.toNat ≤ 9
  · rw [if_pos hdigit, if_pos (by omega)]
    exact congrArg some (by omega)
  · rw [if_neg hdigit]
    cases lower with
    | false =>
      rw [if_neg Bool.false_ne_true, if_neg (by omega), if_pos ⟨by omega, by omega, .inl rfl⟩]
      exact congrArg some (by omega)
    | true =>
      rw [if_pos rfl, if_neg (by omega), if_neg (by omega), if_pos ⟨by omega, by omega, .inl rfl⟩]
      exact congrArg some (by omega)

/-- R87 item 3, in either mode: the character of a character's nibble is that character in the configured case. -/
theorem n2c_of_c2n {lower mixed : Bool} {c : Byte} {v : Nibble} (h : c2n lower mixed c = some v) : n2c lower v = normalise lower c := by
  apply BitVec.eq_of_toNat_eq
  rw [n2c_toNat, normalise_toNat]
  obtain hdigit | hletter := c2n_eq_some h
  · rw [if_pos (by omega), if_neg (by omega), if_neg (by omega)]
    omega
  · rw [if_neg (by omega)]
    cases lower <;> simp only [Bool.false_eq_true, reduceCtorEq, if_true, if_false, true_and, false_and] <;> split_ifs <;> omega

/-- R87 item 2: a letter that single case accepts is in the configured case. -/
theorem normalise_of_c2n_single {lower : Bool} {c : Byte} {v : Nibble} (h : c2n lower false c = some v) : normalise lower c = c := by
  have hrange := c2n_eq_some h
  rw [normalise, if_neg, if_neg] <;>
  · rintro ⟨rfl, hc⟩
    simp at hrange
    omega

/-- R87 item 2. -/
theorem n2c_of_c2n_single {lower : Bool} {c : Byte} {v : Nibble} (h : c2n lower false c = some v) : n2c lower v = c :=
  (n2c_of_c2n h).trans (normalise_of_c2n_single h)

/-- R87 item 4: the round trip makes N2C injective. -/
theorem n2c_injective (lower : Bool) : Function.Injective (n2c lower) := fun m n h =>
  Option.some.inj ((c2n_n2c lower false m).symm.trans (h ▸ c2n_n2c lower false n))

/-- R87 item 4: the image of N2C is what single case accepts. -/
theorem exists_n2c_eq_iff (lower : Bool) (c : Byte) : (∃ n, n2c lower n = c) ↔ (c2n lower false c).isSome = true := by
  rw [Option.isSome_iff_exists]
  constructor
  · rintro ⟨n, rfl⟩
    exact ⟨n, c2n_n2c lower false n⟩
  · rintro ⟨v, h⟩
    exact ⟨v, n2c_of_c2n_single h⟩

/-- Settles O24: item by item; 2 comes from 3, since single case accepts no letter of the other case, and 4 from 1 and 2. -/
theorem tableLaws : Obligations.TableLaws :=
  ⟨c2n_n2c, fun _ _ _ h => n2c_of_c2n_single h, fun _ _ _ h => n2c_of_c2n h, fun lower _ _ h => n2c_injective lower h,
    exists_n2c_eq_iff⟩

/-! The two commands (R88, R89) -/

/-- R33: a found value as a number: RES_OK is worth 0x100. -/
theorem resFound_eq_ofNat (v : Byte) : resFound v = BitVec.ofNat 32 (0x100 + v.toNat) := by
  revert v; decide

/-- R88, R120: LUT_N2C is legal and permitted in every state. -/
theorem exec_lutN2c (n : Nibble) (s : State) :
    exec (.lutN2c n) s = .next (answered .accepted (resFound (n2c s.lower n)) { s with res := resFound (n2c s.lower n) }) :=
  exec_of_permitted rfl rfl

/-- R89, R120: LUT_C2N is legal and permitted in every state. -/
theorem exec_lutC2n (ch : Byte) (s : State) :
    exec (.lutC2n ch) s = .next (answered .accepted (c2nResult s ch) { s with res := c2nResult s ch }) :=
  exec_of_permitted rfl rfl

/-- R89: RES after LUT_C2N in terms of the nibble's number. -/
theorem c2nResult_eq_elim (s : State) (ch : Byte) :
    c2nResult s ch = ((c2n s.lower s.mixed ch).map BitVec.toNat).elim 0 fun d => BitVec.ofNat 32 (0x100 + d) := by
  unfold c2nResult
  cases c2n s.lower s.mixed ch with
  | none => rfl
  | some v =>
    have hfit : (v.setWidth 8).toNat = v.toNat := BitVec.toNat_setWidth_of_le (by decide)
    simp only [resFound_eq_ofNat, hfit, Option.map_some, Option.elim_some]

/-- Settles O22: the command executes in every state (`exec_lutN2c`), and its result is R84's number. -/
theorem lutN2cResult : Obligations.LutN2cResult := by
  intro n s
  dsimp only
  rw [exec_lutN2c, resFound_eq_ofNat, n2c_toNat]
  rfl

/-- Settles O23: the command executes in every state (`exec_lutC2n`), and its result is R85's number range by range. -/
theorem lutC2nResult : Obligations.LutC2nResult := by
  intro ch s c r
  have hres : c2nResult s ch = r := by
    rw [c2nResult_eq_elim, c2n_map_toNat, State.lower, State.mixed]
    simp only [r, c]
    split_ifs <;> rfl
  rw [exec_lutC2n, hres]

end Sys2Proof.Machine

/-! R97: the length of an encoded session's output. -/

namespace Sys2Proof.Machine

open Sys2Proof.Safety

@[simp] theorem hexPair_length (lower : Bool) (b : Byte) : (hexPair lower b).length = 2 := rfl

/-- Two characters a byte when wrapping is off. -/
theorem encodeFrom_unwrapped_length (lower : Bool) (w off : Nat) (bs : List Byte) :
    (encodeFrom false lower w off bs).length = 2 * bs.length := by
  simp [encodeFrom_unwrapped, List.length_flatMap, Nat.mul_comm]

/-- R93: from a positive offset on, two characters a byte and one newline for each line begun. -/
theorem encodeFrom_wrapped_length (lower : Bool) {w off : Nat} (hw : 0 < w) (hoff : 0 < off) (bs : List Byte) :
    (encodeFrom true lower w off bs).length + (off + w - 1) / w = 2 * bs.length + (off + bs.length + w - 1) / w := by
  induction bs generalizing off with
  | nil => simp
  | cons b bs ih =>
    have hrest := ih (off := off + 1) off.succ_pos
    have hline := ceilDiv_succ off hw
    have hshift : off + (bs.length + 1) = off + 1 + bs.length := by omega
    simp only [encodeFrom, List.length_append, List.length_cons, hexPair_length, hshift]
    by_cases hfull : off % w = 0
    · simp only [hfull, hoff, and_self, if_true, List.length_singleton] at hline ⊢
      omega
    · simp only [hfull, and_false, if_false, List.length_nil] at hline ⊢
      omega

/-- R97: the first byte of a session begins a line without a newline before it. -/
theorem encodeText_wrapped_length (lower : Bool) {w : Nat} (hw : 0 < w) {bs : List Byte} (hbs : 0 < bs.length) :
    (encodeText true lower w bs).length = 2 * bs.length + ((bs.length + w - 1) / w - 1) := by
  cases bs with
  | nil => exact absurd hbs (lt_irrefl 0)
  | cons b bs =>
    have hrest := encodeFrom_wrapped_length lower hw one_pos bs
    have hfirst : (1 + w - 1) / w = 1 := by rw [Nat.add_sub_cancel_left, Nat.div_self hw]
    have hlines : 0 < (bs.length + 1 + w - 1) / w := Nat.div_pos (by omega) hw
    rw [hfirst, Nat.add_comm 1 bs.length] at hrest
    simp only [encodeText, encodeFrom, lt_irrefl, false_and, and_false, if_false, List.nil_append, List.length_append,
      hexPair_length, List.length_cons, Nat.zero_add]
    omega

/-- Settles O36: the digits, the newlines between lines when wrapping is on, and the newline at end of stream. -/
theorem encodedLength : Obligations.EncodedLength := by
  intro wrap lower w bs hw
  rw [List.length_append, List.length_singleton]
  cases wrap with
  | false => simp [encodeText, encodeFrom_unwrapped_length]
  | true =>
    by_cases hbs : 0 < bs.length
    · simp [encodeText_wrapped_length lower hw hbs, hbs]
    · obtain rfl : bs = [] := by simpa using hbs
      simp [encodeText]

end Sys2Proof.Machine

/-! R96: the encoder has no error of its own. -/

namespace Sys2Proof.Machine

open Sys2Proof.Safety

/-- R48 item 1: outside ERROR no kind is latched. -/
theorem err_eq_none {s : State} (hi : Invariants s) (he : s.status.state ≠ .error) : s.status.err = .none := by
  by_contra herr
  exact he (hi.errIffError.1 herr)

/-- R116, R130: the one error a commit raises is IOFailure. -/
theorem commitChunk_err (eos : Bool) (s : State) :
    (commitChunk eos s).status.err = s.status.err ∨ (commitChunk eos s).status.err = .ioFailure := by
  rcases (planned_le s s.obuf.length).lt_or_eq with hshort | hfull
  · rw [commitChunk_short eos hshort]
    exact .inr rfl
  · rw [commitChunk_full eos hfull]
    cases eos <;> exact .inl rfl

/-- R109 in direction 0: a CHUNK stages without an error and commits. -/
theorem runChunk_encoding {l : BitVec 24} {s : State} (hi : Invariants s) (hd : s.decoding = false) (hn : l.toNat ≤ s.dataIn.length) :
    runChunk l s = commitChunk (endsStream l s) (encodedChunk l s) := by
  have hend : endsStream l (encodedChunk l s) = endsStream l s := congrArg (fun c : Word => decide (l.toNat < c.toNat)) (sessionOf_pchunk s)
  unfold runChunk
  rw [stageChunk_encoding hi hd hn, ← hend]

/-- Settles O49: a refused CHUNK leaves no kind latched, and of an encoding CHUNK that runs only the commit can raise. -/
theorem encoderRaisesNoDecodeError : Obligations.EncoderRaisesNoDecodeError := by
  intro l s t hi he hd h
  obtain rfl | rfl | ⟨-, -, hn, rfl⟩ := exec_chunk_next h
  · exact .inl (err_eq_none (s := s) hi he)
  · exact .inl (err_eq_none (s := s) hi he)
  · have hsession : (encodedChunk l s).status.err = .none := congrArg Status.err (sessionOf_status hi he)
    rw [runChunk_encoding hi hd hn, ← hsession]
    exact commitChunk_err _ _

end Sys2Proof.Machine

/-! STREAM, the host's read loop (R82): full chunks and then one shorter, in either direction. -/

namespace Sys2Proof.Machine

open Sys2Proof.Safety

/-! The words of STREAM -/

/-- The command word of CHUNK `n` (R68). -/
def chunkWord (n : Nat) : HostInput := .word (encode (.chunk (BitVec.ofNat 24 n)))

theorem streamWords_of_lt {c n : Nat} (h : n < c) : streamWords c n = [chunkWord n] := by
  simp [streamWords, chunkWord, Nat.div_eq_of_lt h, Nat.mod_eq_of_lt h]

theorem streamWords_of_le {c n : Nat} (hc : 0 < c) (h : c ≤ n) : streamWords c n = chunkWord c :: streamWords c (n - c) := by
  simp [streamWords, chunkWord, Nat.div_eq_sub_div hc h, Nat.mod_eq_sub_mod h, List.replicate_succ]

theorem streamLength_of_lt {c n : Nat} (h : n < c) : streamLength c n = 1 := by
  simp [streamLength, Nat.div_eq_of_lt h]

theorem streamLength_of_le {c n : Nat} (hc : 0 < c) (h : c ≤ n) : streamLength c n = streamLength c (n - c) + 1 := by
  rw [streamLength, Nat.div_eq_sub_div hc h, streamLength]

theorem stepN_succ_of_next {s t : State} (n : Nat) (h : step s = .next t) : stepN (n + 1) s = stepN n t := by
  simp only [stepN, h]

/-! What every CHUNK that runs keeps (`runChunk_answers`), field by field -/

@[simp] theorem runChunk_dataIn (l : BitVec 24) (s : State) : (runChunk l s).dataIn = s.dataIn.drop l.toNat := by
  obtain ⟨_, _, hrun, -, hdata, -⟩ := runChunk_answers l s
  exact hrun ▸ hdata

@[simp] theorem runChunk_pchunk (l : BitVec 24) (s : State) : (runChunk l s).pchunk = s.pchunk := by
  obtain ⟨_, _, hrun, -, -, -, -, -, -, hpc, -⟩ := runChunk_answers l s
  exact hrun ▸ hpc

@[simp] theorem runChunk_pwrap (l : BitVec 24) (s : State) : (runChunk l s).pwrap = s.pwrap := by
  obtain ⟨_, _, hrun, -, -, -, -, -, -, -, hpw, -⟩ := runChunk_answers l s
  exact hrun ▸ hpw

@[simp] theorem runChunk_cmdIn (l : BitVec 24) (s : State) : (runChunk l s).cmdIn = s.cmdIn := by
  obtain ⟨_, _, hrun, -, -, -, -, -, -, -, -, hcmd⟩ := runChunk_answers l s
  exact hrun ▸ hcmd

/-! What a CHUNK leaves of the sink's plan -/

theorem planAfter_subset (s : State) (n : Nat) : planAfter s n ⊆ s.sinkPlan := by
  unfold planAfter
  split
  · exact List.Subset.refl _
  · exact List.tail_subset _

theorem commitChunk_sinkPlan (eos : Bool) (s : State) : (commitChunk eos s).sinkPlan = planAfter s s.obuf.length := by
  rcases (planned_le s s.obuf.length).lt_or_eq with hshort | hfull
  · rw [commitChunk_short eos hshort]
    rfl
  · rw [commitChunk_full eos hfull]
    cases eos <;> rfl

/-- R116: a CHUNK uses up entries of the sink's plan and adds none. -/
theorem runChunk_sinkPlan_subset (l : BitVec 24) (s : State) : (runChunk l s).sinkPlan ⊆ s.sinkPlan := by
  have hkept : (stageChunk l s).state.sinkPlan = s.sinkPlan :=
    (kept_stageChunk l s).sinkPlan.trans (openIfIdle_cases (fun t => t.sinkPlan = s.sinkPlan) rfl rfl)
  rw [← hkept]
  unfold runChunk
  cases stageChunk l s with
  | raised t => exact List.Subset.refl _
  | going t => exact (commitChunk_sinkPlan _ t).symm ▸ planAfter_subset t _

/-- R81, R98: a sink that accepts every commit of up to OBUF_CAP bytes accepts one of `n`. -/
theorem planned_of_acceptsAll {s : State} (h : AcceptsAll s s.sinkPlan) {n : Nat} (hn : n ≤ obufCap s) : planned s n = n := by
  unfold planned
  cases hplan : s.sinkPlan with
  | nil => rfl
  | cons k ks => exact min_eq_right (hn.trans (h k (hplan ▸ List.mem_cons_self)))

/-! The states of a STREAM between its commands -/

/-- `s` stands before a command of STREAM, with the bytes still to come on the data-in port and a sink that accepts every commit. -/
structure Streams (s : State) : Prop where
  inv : Invariants s
  live : s.status.state ≠ .error
  words : s.cmdIn = streamWords s.pchunk.toNat s.dataIn.length
  plan : AcceptsAll s s.sinkPlan

/-- R10: a length up to P_CHUNK_MAX fits the field L. -/
theorem chunkLength_toNat {s : State} (hi : Invariants s) {n : Nat} (h : n ≤ s.pchunk.toNat) : (BitVec.ofNat 24 n).toNat = n := by
  have hmax := hi.chunkMax.2
  rw [BitVec.toNat_ofNat]
  exact Nat.mod_eq_of_lt (by omega)

/-- R9, R109: the CHUNK at the front of the command stream runs when it is legal and permitted and its data is there. -/
theorem step_chunkWord {s : State} (hi : Invariants s) (he : s.status.state ≠ .error) {n : Nat} {rest : List HostInput}
    (hin : s.cmdIn = chunkWord n :: rest) (hl : n ≤ s.pchunk.toNat) (hn : n ≤ s.dataIn.length) :
    step s = .next (runChunk (BitVec.ofNat 24 n) (popped s rest)) := by
  have hL := chunkLength_toNat hi hl
  have hdata : (BitVec.ofNat 24 n).toNat ≤ s.dataIn.length := hL.symm ▸ hn
  rw [stepRunsDecodedCommand s _ rest _ hin (decodeOfEncode _) (.inr fun l heq => .inr (.inr (Instr.chunk.inj heq ▸ hdata)))]
  exact exec_chunk_runs (s := popped s rest) (hL.symm ▸ hl) he hdata

/-- The state after the CHUNK that ends a STREAM. -/
def afterLast (s : State) : State := runChunk (BitVec.ofNat 24 s.dataIn.length) (popped s [])

/-- The state after a full CHUNK of a STREAM. -/
def afterFull (s : State) : State :=
  runChunk (BitVec.ofNat 24 s.pchunk.toNat) (popped s (streamWords s.pchunk.toNat (s.dataIn.length - s.pchunk.toNat)))

theorem Streams.step_last {s : State} (h : Streams s) (hlt : s.dataIn.length < s.pchunk.toNat) : step s = .next (afterLast s) :=
  step_chunkWord h.inv h.live (h.words.trans (streamWords_of_lt hlt)) hlt.le le_rfl

theorem Streams.step_full {s : State} (h : Streams s) (hle : s.pchunk.toNat ≤ s.dataIn.length) : step s = .next (afterFull s) :=
  step_chunkWord h.inv h.live (h.words.trans (streamWords_of_le h.inv.chunkMax.1 hle)) le_rfl hle

theorem Streams.afterFull_dataIn {s : State} (h : Streams s) : (afterFull s).dataIn = s.dataIn.drop s.pchunk.toNat := by
  rw [afterFull, runChunk_dataIn, chunkLength_toNat h.inv le_rfl]
  rfl

/-- A full CHUNK that raises no error leaves a STREAM of the bytes after it. -/
theorem Streams.after_full {s : State} (h : Streams s) (hle : s.pchunk.toNat ≤ s.dataIn.length)
    (hlive : (afterFull s).status.state ≠ .error) : Streams (afterFull s) where
  inv := stepKeepsInvariants s _ h.inv (h.step_full hle)
  live := hlive
  words := by
    rw [h.afterFull_dataIn, List.length_drop, afterFull, runChunk_cmdIn, runChunk_pchunk]
    rfl
  plan k hk := by
    have hcap : obufCap (afterFull s) = obufCap s := by
      simp only [obufCap, afterFull, runChunk_pchunk, runChunk_pwrap, popped]
    have hplan : (afterFull s).sinkPlan ⊆ s.sinkPlan := runChunk_sinkPlan_subset _ _
    exact hcap.trans_le (h.plan k (hplan hk))

/-! What a STREAM has gained over a session -/

/-- Over the session `u`, `t` has taken `n` more input bytes and delivered the output `out` more (R39, R40, R45). -/
structure Gained (u : State) (n : Nat) (out : List Byte) (t : State) : Prop where
  sink : t.sink = u.sink ++ out
  inCount : t.inCount = u.inCount + BitVec.ofNat 64 n
  outCount : t.outCount = u.outCount + BitVec.ofNat 64 out.length

theorem Gained.trans {s t u : State} {m n : Nat} {a b : List Byte} (h : Gained s m a t) (g : Gained t n b u) :
    Gained s (m + n) (a ++ b) u where
  sink := by rw [g.sink, h.sink, List.append_assoc]
  inCount := by rw [g.inCount, h.inCount, BitVec.ofNat_add, BitVec.add_assoc]
  outCount := by rw [g.outCount, h.outCount, List.length_append, BitVec.ofNat_add, BitVec.add_assoc]

/-- `t` has answered every command and taken every byte, and its session is done (R114). -/
structure Ended (t : State) : Prop where
  status : t.status = ⟨.idle, .none, true⟩
  cmdIn : t.cmdIn = []
  dataIn : t.dataIn = []

/-- An open session is the one the next CHUNK works in (R110). -/
theorem sessionOf_of_not_idle {s : State} (h : s.status.state ≠ .idle) : sessionOf s = s := if_neg h

/-- R110: the session does not depend on the command stream. -/
theorem sessionOf_popped (s : State) (rest : List HostInput) : sessionOf (popped s rest) = popped (sessionOf s) rest := by
  by_cases hidle : s.status.state = .idle <;> simp [sessionOf, popped, hidle]

end Sys2Proof.Machine

/-! R98: STREAM in direction 0 delivers the encoding of the whole sequence. -/

namespace Sys2Proof.Machine

open Sys2Proof.Safety

/-! ENC_STEP over a sequence -/

/-- R91, R93: from a line that holds `lineFill w m` bytes, ENC_STEP over a sequence stages the text of the bytes at offset `m`. -/
theorem foldl_encStep_obuf (bs : List Byte) {s : State} {m : Nat} (hw : 0 < s.pwrap.toNat) (hm : LineIs s m) :
    (bs.foldl (fun t b => encStep b t) s).obuf = s.obuf ++ encodeFrom s.wrap s.lower s.pwrap.toNat m bs := by
  induction bs generalizing s m with
  | nil => simp
  | cons b bs ih =>
    have hstep := countIn_encStep b hw hm
    have hkept := kept_encStep b s
    have hwrap : (encStep b s).wrap = s.wrap := by rw [State.wrap, hkept.cfg, State.wrap]
    have hlower : (encStep b s).lower = s.lower := by rw [State.lower, hkept.cfg, State.lower]
    have hline : LineIs (countIn (encStep b s)) (m + 1) := hstep ▸ lineIs_encoded hw m [b]
    have hobuf : (countIn (encStep b s)).obuf = s.obuf ++ encodeFrom s.wrap s.lower s.pwrap.toNat m [b] := by
      rw [hstep]
      simp [encoded, State.obuf]
    calc ((b :: bs).foldl (fun t b => encStep b t) s).obuf
        = (encStep b s).obuf ++ encodeFrom s.wrap s.lower s.pwrap.toNat (m + 1) bs := by
          rw [List.foldl_cons, ih (s := encStep b s) (hkept.pwrap ▸ hw) hline, hwrap, hlower, hkept.pwrap]
      _ = s.obuf ++ (encodeFrom s.wrap s.lower s.pwrap.toNat m [b] ++ encodeFrom s.wrap s.lower s.pwrap.toNat (m + 1) bs) := by
          rw [← List.append_assoc, ← hobuf]
          rfl
      _ = s.obuf ++ encodeFrom s.wrap s.lower s.pwrap.toNat m (b :: bs) :=
          congrArg (s.obuf ++ ·) (encodeFrom_append s.wrap s.lower _ m [b] bs).symm

/-! The line across chunks -/

theorem lineFill_mod (w m : Nat) : lineFill w m % w = m % w := by
  unfold lineFill
  split
  · simp [*]
  · rw [Nat.mod_add_mod, Nat.sub_add_cancel (by omega)]

theorem lineFill_pos_iff {w m : Nat} : 0 < lineFill w m ↔ 0 < m := by
  unfold lineFill
  split <;> omega

/-- R94: LINE_BYTES holds all that the text of later bytes needs of the bytes before them. -/
theorem encodeFrom_lineAt (wrap lower : Bool) {w : Word} (lb : Word) (hw : 0 < w.toNat) (m : Nat) (bs : List Byte) :
    encodeFrom wrap lower w.toNat (lineAt wrap w lb m).toNat bs = encodeFrom wrap lower w.toNat m bs := by
  cases wrap with
  | false => simp only [encodeFrom_unwrapped]
  | true =>
    have hfit : (lineAt true w lb m).toNat = lineFill w.toNat m := by
      simp only [lineAt, if_true, BitVec.toNat_ofNat]
      exact Nat.mod_eq_of_lt (lt_of_le_of_lt (lineFill_le hw) w.isLt)
    rw [hfit]
    rcases m.eq_zero_or_pos with rfl | hm
    · rfl
    · exact encodeFrom_congr true lower w.toNat bs (lineFill_pos_iff.2 hm) hm (lineFill_mod w.toNat m)

/-! A CHUNK that encodes and whose commit the sink accepts in full -/

/-- In `s` a CHUNK `l` in direction 0 is accepted, has its data, and has a sink that accepts its commit. -/
structure Encodes (l : BitVec 24) (s : State) : Prop where
  inv : Invariants s
  live : s.status.state ≠ .error
  dir : s.decoding = false
  legal : l.toNat ≤ s.pchunk.toNat
  data : l.toNat ≤ s.dataIn.length
  plan : AcceptsAll s s.sinkPlan

theorem planned_encodedChunk (l : BitVec 24) (s : State) (n : Nat) : planned (encodedChunk l s) n = planned s n := by
  simp only [planned, encodedChunk, sessionOf_sinkPlan]

/-- R109, R116: everything staged is delivered. -/
theorem Encodes.runChunk_eq {l : BitVec 24} {s : State} (h : Encodes l s) :
    runChunk l s = answered .accepted (BitVec.ofNat 32 (encodedOutput l s).length)
      (endChunk (endsStream l s) (delivered (encodedOutput l s).length (encodedChunk l s))) := by
  have haccept : planned (encodedChunk l s) (encodedOutput l s).length = (encodedOutput l s).length := by
    rw [planned_encodedChunk]
    exact planned_of_acceptsAll h.plan (encodedOutput_length_lt h.inv h.data h.legal).le
  rw [runChunk_encoding h.inv h.dir h.data, commitChunk_full _ (by rwa [encodedChunk_obuf]), encodedChunk_obuf]

/-- R117: the CHUNK ends the session or leaves it open. -/
theorem Encodes.status {l : BitVec 24} {s : State} (h : Encodes l s) :
    (runChunk l s).status = if l.toNat < s.pchunk.toNat then ⟨.idle, .none, true⟩ else ⟨.active, .none, false⟩ := by
  have hsession : (delivered (encodedOutput l s).length (encodedChunk l s)).status = ⟨s.status.state, .none, false⟩ :=
    sessionOf_status h.inv h.live
  rw [h.runChunk_eq]
  by_cases hlt : l.toNat < s.pchunk.toNat <;> simp [answered, endChunk, endsStream, hlt, hsession]

/-- R91: LINE_BYTES after the CHUNK. -/
theorem Encodes.lineBytes {l : BitVec 24} {s : State} (h : Encodes l s) :
    (runChunk l s).lineBytes = lineAt s.wrap s.pwrap (sessionOf s).lineBytes ((sessionOf s).lineBytes.toNat + l.toNat) := by
  rw [h.runChunk_eq]
  cases endsStream l s <;> rfl

theorem Encodes.gained {l : BitVec 24} {s : State} (h : Encodes l s) :
    Gained (sessionOf s) l.toNat (encodedOutput l s) (runChunk l s) := by
  have hsink : (delivered (encodedOutput l s).length (encodedChunk l s)).sink = (sessionOf s).sink ++ encodedOutput l s := by
    show (sessionOf s).sink ++ (encodedChunk l s).obuf.take _ = _
    rw [encodedChunk_obuf, List.take_length]
  rw [h.runChunk_eq]
  cases endsStream l s <;> exact ⟨hsink, rfl, rfl⟩

/-! The CHUNKs of the STREAM -/

/-- What encoding makes of the bytes of a STREAM still to come. -/
def remainingText (s : State) : List Byte :=
  encodeFrom s.wrap s.lower s.pwrap.toNat (sessionOf s).lineBytes.toNat s.dataIn

theorem encodedOutput_popped (l : BitVec 24) (s : State) (rest : List HostInput) :
    encodedOutput l (popped s rest) = encodedOutput l s := by
  simp only [encodedOutput, sessionOf_popped]
  rfl

theorem Streams.encodes {s : State} (h : Streams s) (hd : s.decoding = false) {n : Nat} (hl : n ≤ s.pchunk.toNat)
    (hn : n ≤ s.dataIn.length) (rest : List HostInput) : Encodes (BitVec.ofNat 24 n) (popped s rest) := by
  have hL := chunkLength_toNat h.inv hl
  exact ⟨invariants_popped h.inv rest, h.live, hd, hL.trans_le hl, hL.trans_le hn, h.plan⟩

/-- What a CHUNK of a STREAM gains over the session before it. -/
theorem Streams.gained {s : State} (h : Streams s) (hd : s.decoding = false) {n : Nat} (hl : n ≤ s.pchunk.toNat)
    (hn : n ≤ s.dataIn.length) (rest : List HostInput) :
    Gained (sessionOf s) n (encodedOutput (BitVec.ofNat 24 n) s) (runChunk (BitVec.ofNat 24 n) (popped s rest)) := by
  have hg := (h.encodes hd hl hn rest).gained
  rw [sessionOf_popped, encodedOutput_popped, chunkLength_toNat h.inv hl] at hg
  exact ⟨hg.sink, hg.inCount, hg.outCount⟩

/-- R95, R98, R114: the CHUNK that ends the STREAM delivers what is left and the newline. -/
theorem Streams.last_delivers {s : State} (h : Streams s) (hd : s.decoding = false) (hlt : s.dataIn.length < s.pchunk.toNat) :
    Gained (sessionOf s) s.dataIn.length (remainingText s ++ [newline]) (afterLast s) ∧ Ended (afterLast s) := by
  have hL := chunkLength_toNat h.inv hlt.le
  have hout : encodedOutput (BitVec.ofNat 24 s.dataIn.length) s = remainingText s ++ [newline] := by
    simp only [encodedOutput, remainingText, hL, List.take_length, if_pos hlt]
  refine ⟨hout ▸ h.gained hd hlt.le le_rfl [], ?_, ?_, ?_⟩
  · exact (h.encodes hd hlt.le le_rfl []).status.trans (if_pos (hL.trans_lt hlt))
  · exact runChunk_cmdIn _ _
  · exact (runChunk_dataIn _ _).trans (List.drop_eq_nil_of_le hL.ge)

/-- R117: a full CHUNK leaves the session open. -/
theorem Streams.afterFull_status {s : State} (h : Streams s) (hd : s.decoding = false) (hle : s.pchunk.toNat ≤ s.dataIn.length) :
    (afterFull s).status = ⟨.active, .none, false⟩ :=
  (h.encodes hd le_rfl hle _).status.trans (if_neg (chunkLength_toNat h.inv le_rfl).not_lt)

/-- R94: the text of a STREAM is the output of its full CHUNK and the text of the STREAM after it. -/
theorem Streams.remainingText_full {s : State} (h : Streams s) (hd : s.decoding = false) (hle : s.pchunk.toNat ≤ s.dataIn.length) :
    remainingText s = encodedOutput (BitVec.ofNat 24 s.pchunk.toNat) s ++ remainingText (afterFull s) := by
  have hL := chunkLength_toNat h.inv le_rfl
  have hcfg : (afterFull s).cfg = s.cfg := runChunk_cfg _ _
  have hpwrap : (afterFull s).pwrap = s.pwrap := runChunk_pwrap _ _
  have hopen : sessionOf (afterFull s) = afterFull s := sessionOf_of_not_idle (by simp [h.afterFull_status hd hle])
  have hline : (afterFull s).lineBytes = lineAt s.wrap s.pwrap (sessionOf s).lineBytes
      ((sessionOf s).lineBytes.toNat + s.pchunk.toNat) := by
    have hchunk := (h.encodes hd le_rfl hle (streamWords s.pchunk.toNat (s.dataIn.length - s.pchunk.toNat))).lineBytes
    rw [sessionOf_popped, hL] at hchunk
    exact hchunk
  have hrest : remainingText (afterFull s) = encodeFrom s.wrap s.lower s.pwrap.toNat ((sessionOf s).lineBytes.toNat + s.pchunk.toNat)
      (s.dataIn.drop s.pchunk.toNat) := by
    rw [remainingText, hopen, hline, hpwrap, h.afterFull_dataIn, State.wrap, State.lower, hcfg]
    exact encodeFrom_lineAt _ _ _ h.inv.wrapBytes _ _
  have hout : encodedOutput (BitVec.ofNat 24 s.pchunk.toNat) s =
      encodeFrom s.wrap s.lower s.pwrap.toNat (sessionOf s).lineBytes.toNat (s.dataIn.take s.pchunk.toNat) := by
    simp only [encodedOutput, hL, lt_irrefl, if_false, List.append_nil]
  have hsplit := encodeFrom_append s.wrap s.lower s.pwrap.toNat (sessionOf s).lineBytes.toNat (s.dataIn.take s.pchunk.toNat)
    (s.dataIn.drop s.pchunk.toNat)
  rw [List.take_append_drop, List.length_take_of_le hle] at hsplit
  rw [hout, hrest, ← hsplit, remainingText]

/-- R98: a STREAM in direction 0 delivers the text of the bytes to come and one newline, and ends. -/
theorem Streams.delivers {s : State} (h : Streams s) (hd : s.decoding = false) :
    ∃ t, stepN (streamLength s.pchunk.toNat s.dataIn.length) s = .next t ∧
      Gained (sessionOf s) s.dataIn.length (remainingText s ++ [newline]) t ∧ Ended t := by
  induction hn : s.dataIn.length using Nat.strong_induction_on generalizing s with
  | _ n ih =>
    subst hn
    have hpos : 0 < s.pchunk.toNat := h.inv.chunkMax.1
    rcases Nat.lt_or_ge s.dataIn.length s.pchunk.toNat with hlt | hle
    · refine ⟨afterLast s, ?_, h.last_delivers hd hlt⟩
      rw [streamLength_of_lt hlt, stepN_succ_of_next 0 (h.step_last hlt), stepN]
    · have hstatus := h.afterFull_status hd hle
      have hlen : (afterFull s).dataIn.length = s.dataIn.length - s.pchunk.toNat := by
        rw [h.afterFull_dataIn, List.length_drop]
      have hdir : (afterFull s).decoding = false := by rwa [State.decoding, afterFull, runChunk_cfg]
      have hopen : sessionOf (afterFull s) = afterFull s := sessionOf_of_not_idle (by simp [hstatus])
      obtain ⟨t, hrun, hgained, hended⟩ := ih _ (by omega) (h.after_full hle (by simp [hstatus])) hdir hlen
      refine ⟨t, ?_, ?_, hended⟩
      · rw [streamLength_of_le hpos hle, stepN_succ_of_next _ (h.step_full hle), ← hrun, afterFull, runChunk_pchunk]
        rfl
      · rw [hopen] at hgained
        have hboth := (h.gained hd le_rfl hle _).trans hgained
        rwa [Nat.add_sub_cancel' hle, ← List.append_assoc, ← h.remainingText_full hd hle] at hboth

/-- The host's STREAM of `data`, put on the ports of a machine that is not in ERROR. -/
theorem streams_streaming {s : State} (hi : Invariants s) (he : s.status.state ≠ .error) {plan : List Nat} (hplan : AcceptsAll s plan)
    (data : List Byte) : Streams (streaming s data plan) :=
  ⟨invariants_withPorts hi _ _ _ _ _, he, rfl, hplan⟩

/-- Settles O39: ENC_STEP from an empty line stages the text of the sequence, and STREAM, CHUNK by CHUNK, the same text and a newline. -/
theorem streamEncodes : Obligations.StreamEncodes := by
  intro s data plan hi hidle hd hplan text
  have hsteps : (data.foldl (fun t b => encStep b t) { s with lineBytes := 0 }).obuf = text := by
    rw [foldl_encStep_obuf (s := { s with lineBytes := 0 }) (m := 0) data hi.wrapBytes (fun _ => rfl)]
    exact congrArg (· ++ text) hi.obufEmpty
  have hopen : sessionOf (streaming s data plan) = { streaming s data plan with
      pendValid := false, pendNib := 0, lineBytes := 0, lastNl := false, inCount := 0, outCount := 0,
      status := { s.status with done := false } } := if_pos hidle
  obtain ⟨t, hrun, hgained, hended⟩ := (streams_streaming hi (by simp [hidle]) hplan data).delivers hd
  have htext : remainingText (streaming s data plan) = text := by
    rw [remainingText, hopen]
    rfl
  rw [hopen, htext] at hgained
  refine ⟨hsteps, by rintro rfl; rfl, t, hrun, hgained.sink, hended.status, ?_, ?_, hended.cmdIn, hended.dataIn⟩
  · exact hgained.inCount.trans (BitVec.zero_add _)
  · exact hgained.outCount.trans (BitVec.zero_add _)

end Sys2Proof.Machine

/-! DEC_STEP character by character (R99 to R102): what decoding makes of a text cut in two, and of a text without its newlines. -/

namespace Sys2Proof.Machine

open Sys2Proof.Safety

/-- What one character does to the pending nibble `p` (R99): the byte it completes, if any, and the nibble pending after it; none for a
character that is neither a digit nor a skipped newline. -/
def charStep (strict lower mixed : Bool) (p : Option Nibble) (c : Byte) : Option (List Byte × Option Nibble) :=
  if c = newline ∧ strict = false then some ([], p)
  else (c2n lower mixed c).map fun v => p.elim ([], some v) fun h => ([joinNibbles h v], none)

/-- `decodeFrom` is `charStep`, then `decodeFrom` of the rest. -/
theorem decodeFrom_cons_charStep (strict lower mixed : Bool) (p : Option Nibble) (k : Nat) (c : Byte) (cs : List Byte) :
    decodeFrom strict lower mixed p k (c :: cs) =
      (charStep strict lower mixed p c).elim (.error (k, c)) fun r =>
        (decodeFrom strict lower mixed r.2 (k + 1) cs).map (Prod.map (r.1 ++ ·) id) := by
  have hnothing (x : Except (Nat × Byte) (List Byte × Option Nibble)) : x.map (Prod.map ([] ++ ·) id) = x := by cases x <;> rfl
  rw [decodeFrom_cons, charStep]
  split_ifs with hskip
  · exact (hnothing _).symm
  · cases c2n lower mixed c with
    | none => rfl
    | some v =>
      cases p with
      | none => exact (hnothing _).symm
      | some h =>
        dsimp only [Option.map_some, Option.elim_some]
        cases decodeFrom strict lower mixed none (k + 1) cs <;> rfl

/-- R102: offsets are counted from the first character's. -/
theorem decodeFrom_add (strict lower mixed : Bool) (p : Option Nibble) (m k : Nat) (cs : List Byte) :
    decodeFrom strict lower mixed p (m + k) cs = (decodeFrom strict lower mixed p k cs).mapError (Prod.map (m + ·) id) := by
  induction cs generalizing p k with
  | nil => rfl
  | cons c cs ih =>
    rw [decodeFrom_cons_charStep, decodeFrom_cons_charStep]
    cases charStep strict lower mixed p c with
    | none => rfl
    | some r =>
      rw [Option.elim_some, Option.elim_some, Nat.add_assoc, ih]
      cases decodeFrom strict lower mixed r.2 (k + 1) cs <;> rfl

/-- R106: the second part of a text is decoded from the nibble the first part leaves pending. -/
theorem decodeFrom_append (strict lower mixed : Bool) (p : Option Nibble) (k : Nat) (as cs : List Byte) :
    decodeFrom strict lower mixed p k (as ++ cs) =
      (decodeFrom strict lower mixed p k as).bind fun r =>
        (decodeFrom strict lower mixed r.2 (k + as.length) cs).map (Prod.map (r.1 ++ ·) id) := by
  induction as generalizing p k with
  | nil =>
    show decodeFrom strict lower mixed p k cs = (decodeFrom strict lower mixed p k cs).map _
    cases decodeFrom strict lower mixed p k cs <;> rfl
  | cons a as ih =>
    have hk : k + (a :: as).length = k + 1 + as.length := by rw [List.length_cons]; omega
    rw [List.cons_append, decodeFrom_cons_charStep, decodeFrom_cons_charStep, hk]
    cases charStep strict lower mixed p a with
    | none => rfl
    | some r =>
      rw [Option.elim_some, Option.elim_some, ih]
      cases decodeFrom strict lower mixed r.2 (k + 1) as with
      | error e => rfl
      | ok x =>
        show ((decodeFrom strict lower mixed x.2 (k + 1 + as.length) cs).map _).map _ =
          (decodeFrom strict lower mixed x.2 (k + 1 + as.length) cs).map _
        cases decodeFrom strict lower mixed x.2 (k + 1 + as.length) cs with
        | error e => rfl
        | ok y => exact congrArg (fun zs => Except.ok (zs, y.2)) (List.append_assoc r.1 x.1 y.1).symm

theorem decodeFrom_append_of_ok {strict lower mixed : Bool} {p q : Option Nibble} {k : Nat} {as bs : List Byte}
    (h : decodeFrom strict lower mixed p k as = .ok (bs, q)) (cs : List Byte) :
    decodeFrom strict lower mixed p k (as ++ cs) =
      (decodeFrom strict lower mixed q (k + as.length) cs).map (Prod.map (bs ++ ·) id) := by
  rw [decodeFrom_append, h]
  rfl

theorem decodeFrom_append_of_error {strict lower mixed : Bool} {p : Option Nibble} {k : Nat} {as : List Byte} {e : Nat × Byte}
    (h : decodeFrom strict lower mixed p k as = .error e) (cs : List Byte) :
    decodeFrom strict lower mixed p k (as ++ cs) = .error e := by
  rw [decodeFrom_append, h]
  rfl

/-! A whole text -/

/-- The result of a text of `n` characters, from what DEC_STEP makes of its characters (R103, R106). -/
def textResult (n : Nat) : Except (Nat × Byte) (List Byte × Option Nibble) → Except DecodeError (List Byte)
  | .error (off, c) => .error (.digit off c)
  | .ok (_, some _) => .error (.alignment n)
  | .ok (bs, none) => .ok bs

theorem decodeText_eq_textResult (strict lower mixed : Bool) (h : List Byte) :
    decodeText strict lower mixed h = textResult h.length (decodeFrom strict lower mixed none 0 h) := rfl

theorem textResult_eq_ok_iff {n : Nat} {x : Except (Nat × Byte) (List Byte × Option Nibble)} {bs : List Byte} :
    textResult n x = .ok bs ↔ x = .ok (bs, none) := by
  obtain ⟨off, c⟩ | ⟨as, _ | v⟩ := x <;> simp [textResult]

theorem decodeText_eq_ok_iff {strict lower mixed : Bool} {h bs : List Byte} :
    decodeText strict lower mixed h = .ok bs ↔ decodeFrom strict lower mixed none 0 h = .ok (bs, none) := by
  rw [decodeText_eq_textResult, textResult_eq_ok_iff]

/-! Newlines (R100, R101) -/

/-- STRICT concerns newlines only. -/
theorem charStep_of_ne_newline {c : Byte} (hc : c ≠ newline) (strict lower mixed : Bool) (p : Option Nibble) :
    charStep strict lower mixed p c = charStep true lower mixed p c := by
  simp [charStep, hc]

/-- A `map` keeps which of two results are equal successes. -/
theorem map_eq_ok_congr {ε ε' α β : Type} {x : Except ε α} {y : Except ε' α} (h : ∀ a, x = .ok a ↔ y = .ok a) (f : α → β) (b : β) :
    x.map f = .ok b ↔ y.map f = .ok b := by
  cases x <;> cases y <;> simp_all [Except.map]

/-- R100: tolerant decoding is strict decoding of the other characters, whatever nibble is pending. -/
theorem decodeFrom_tolerant_iff (lower mixed : Bool) (p : Option Nibble) (k m : Nat) (cs : List Byte) (r : List Byte × Option Nibble) :
    decodeFrom false lower mixed p k cs = .ok r ↔ decodeFrom true lower mixed p m (cs.filter fun c => c != newline) = .ok r := by
  induction cs generalizing p k m r with
  | nil => rfl
  | cons c cs ih =>
    by_cases hc : c = newline
    · rw [decodeFrom_cons, if_pos ⟨hc, rfl⟩, List.filter_cons_of_neg (by simp [hc])]
      exact ih p (k + 1) m r
    · rw [List.filter_cons_of_pos (by simp [hc]), decodeFrom_cons_charStep, decodeFrom_cons_charStep, charStep_of_ne_newline hc]
      cases charStep true lower mixed p c with
      | none => simp
      | some x => exact map_eq_ok_congr (ih x.2 (k + 1) (m + 1)) _ r

/-- Settles O37: a text decodes when its characters do and leave no nibble pending, in either mode. -/
theorem newlinesSkippedAnywhere : Obligations.NewlinesSkippedAnywhere := by
  intro lower mixed h bs
  rw [decodeText_eq_ok_iff, decodeText_eq_ok_iff]
  exact decodeFrom_tolerant_iff lower mixed none 0 0 h (bs, none)

end Sys2Proof.Machine

/-! R107: the round-trip laws of the codec. -/

namespace Sys2Proof.Machine

open Sys2Proof.Safety

/-! Decoding digits -/

/-- R99: a digit completes the byte of a pending nibble, or is pending itself, in either mode. -/
theorem charStep_of_digit {lower mixed : Bool} {c : Byte} {v : Nibble} (h : c2n lower mixed c = some v) (strict : Bool) (p : Option Nibble) :
    charStep strict lower mixed p c = some (p.elim ([], some v) fun high => ([joinNibbles high v], none)) := by
  have hc : c ≠ newline := by
    rintro rfl
    simp [c2n_newline] at h
  simp [charStep, hc, h]

/-- R107 item 1: the digits of bytes decode to the bytes. -/
theorem decodeFrom_hexPairs (strict lower mixed : Bool) (k : Nat) (bs : List Byte) :
    decodeFrom strict lower mixed none k (bs.flatMap (hexPair lower)) = .ok (bs, none) := by
  induction bs generalizing k with
  | nil => rfl
  | cons b bs ih =>
    rw [List.flatMap_cons, hexPair, List.cons_append, List.cons_append, List.nil_append, decodeFrom_cons_charStep,
      charStep_of_digit (c2n_n2c lower mixed _)]
    simp [decodeFrom_cons_charStep, charStep_of_digit (c2n_n2c lower mixed _), ih, Except.map]

/-- R107 item 2: digits decode, and the digits of the bytes completed, with that of the nibble left pending, are the digits read, with
that of the nibble pending before them, in the configured case. -/
theorem decodeFrom_digits (strict : Bool) {lower mixed : Bool} {cs : List Byte} (h : ∀ c ∈ cs, (c2n lower mixed c).isSome = true)
    (p : Option Nibble) (k : Nat) :
    ∃ bs q, decodeFrom strict lower mixed p k cs = .ok (bs, q) ∧
      bs.flatMap (hexPair lower) ++ (q.map (n2c lower)).toList = (p.map (n2c lower)).toList ++ cs.map (normalise lower) := by
  induction cs generalizing p k with
  | nil => exact ⟨[], p, rfl, by simp⟩
  | cons c cs ih =>
    obtain ⟨hc, hcs⟩ := List.forall_mem_cons.1 h
    obtain ⟨v, hv⟩ := Option.isSome_iff_exists.1 hc
    rw [decodeFrom_cons_charStep, charStep_of_digit hv, List.map_cons, ← n2c_of_c2n hv]
    cases p with
    | none =>
      obtain ⟨bs, q, hdec, hdigits⟩ := ih hcs (some v) (k + 1)
      exact ⟨bs, q, by simp [hdec, Except.map], by simp [hdigits]⟩
    | some high =>
      obtain ⟨bs, q, hdec, hdigits⟩ := ih hcs none (k + 1)
      exact ⟨joinNibbles high v :: bs, q, by simp [hdec, Except.map], by simp [hexPair, hdigits]⟩

/-- R103: an even number of digits leaves no nibble pending. -/
theorem decodeFrom_even_digits (strict : Bool) {lower mixed : Bool} {cs : List Byte} (heven : cs.length % 2 = 0)
    (h : ∀ c ∈ cs, (c2n lower mixed c).isSome = true) :
    ∃ bs, decodeFrom strict lower mixed none 0 cs = .ok (bs, none) ∧ bs.flatMap (hexPair lower) = cs.map (normalise lower) := by
  obtain ⟨bs, q, hdec, hdigits⟩ := decodeFrom_digits strict h none 0
  cases q with
  | none => exact ⟨bs, hdec, by simpa using hdigits⟩
  | some v =>
    have hlen := congrArg List.length hdigits
    simp [List.length_flatMap] at hlen
    omega

/-! The newlines of the streaming encoder's output -/

/-- R91: without its newlines a text is its digits. -/
theorem filter_encodeFrom (wrap lower : Bool) (w off : Nat) (bs : List Byte) :
    (encodeFrom wrap lower w off bs).filter (fun c => c != newline) = bs.flatMap (hexPair lower) := by
  induction bs generalizing off with
  | nil => rfl
  | cons b bs ih =>
    have hpair : (hexPair lower b).filter (fun c => c != newline) = hexPair lower b := by simp [hexPair, n2c_ne_newline]
    have hwrap (c : Prop) [Decidable c] : (if c then [newline] else []).filter (fun c => c != newline) = [] := by split <;> simp
    rw [encodeFrom, List.filter_append, List.filter_append, hwrap, hpair, ih, List.flatMap_cons, List.nil_append]

/-- R80: the first newline of the streaming encoder's output ends the first line when wrapping is on, and else the output. -/
theorem encodeText_first_newline (wrap lower : Bool) {w : Nat} (hw : 0 < w) (bs : List Byte) :
    ∃ rest, encodeText wrap lower w bs ++ [newline] =
      (if wrap = true then bs.take w else bs).flatMap (hexPair lower) ++ newline :: rest := by
  cases wrap with
  | false => exact ⟨[], by simp [encodeText, encodeFrom_unwrapped]⟩
  | true =>
    rcases Nat.lt_or_ge w bs.length with hmore | hlast
    · exact ⟨encodeText true lower w (bs.drop w) ++ [newline], by simp [encodeText_first_line lower hw hmore, encodedLine]⟩
    · exact ⟨[], by simp [encodeText_single_line lower hlast, encodedLine]⟩

/-- R101: strict decoding stops at a newline behind digits. -/
theorem decodeText_strict_newline (lower mixed : Bool) (bs rest : List Byte) :
    decodeText true lower mixed (bs.flatMap (hexPair lower) ++ newline :: rest) = .error (.digit (2 * bs.length) newline) := by
  have hstop : charStep true lower mixed none newline = none := by simp [charStep, c2n_newline]
  have hlen : (bs.flatMap (hexPair lower)).length = 2 * bs.length := by simp [List.length_flatMap, Nat.mul_comm]
  rw [decodeText_eq_textResult, decodeFrom_append_of_ok (decodeFrom_hexPairs true lower mixed 0 bs), hlen, Nat.zero_add,
    decodeFrom_cons_charStep, hstop]
  rfl

/-- Settles O38: 1 from the text's digits, the newlines left out (O37); 2 from the digits read, pair by pair; 3 from the text's first
newline. -/
theorem roundTripLaws : Obligations.RoundTripLaws := by
  refine ⟨?_, ?_, ?_⟩
  · intro wrap lower mixed w bs _
    rw [newlinesSkippedAnywhere, encodeText, List.filter_append, filter_encodeFrom, decodeText_eq_ok_iff]
    simpa using decodeFrom_hexPairs true lower mixed 0 bs
  · intro strict lower mixed w h heven hdigits
    obtain ⟨bs, hdec, htext⟩ := decodeFrom_even_digits strict heven hdigits
    rw [← encodeFrom_unwrapped lower w 0] at htext
    refine ⟨bs, decodeText_eq_ok_iff.2 hdec, htext, ?_⟩
    rintro rfl
    refine htext.trans ((List.map_congr_left fun c hc => ?_).trans (List.map_id h))
    obtain ⟨v, hv⟩ := Option.isSome_iff_exists.1 (hdigits c hc)
    exact normalise_of_c2n_single hv
  · intro wrap lower mixed w bs hw
    obtain ⟨rest, htext⟩ := encodeText_first_newline wrap lower hw bs
    rw [htext, decodeText_strict_newline]
    cases wrap <;> simp [Nat.min_comm]

end Sys2Proof.Machine

/-! R106: STREAM in direction 1 with stream scope delivers the bytes of the whole text, or ends in ERROR with its first error. -/

namespace Sys2Proof.Machine

open Sys2Proof.Safety

/-! The errors of a text (R127 to R129) -/

/-- The code a text's error latches (R127). -/
def kindOf : DecodeError → ErrKind
  | .digit _ _ => .invalidDigit
  | .alignment _ => .invalidAlignment

/-- The offset a text's error records (R128, R129). -/
def offsetOf : DecodeError → Nat
  | .digit off _ => off
  | .alignment off => off

/-- The character a text's error records (R128, R129). -/
def charOf : DecodeError → Byte
  | .digit _ c => c
  | .alignment _ => 0

/-- The same error of a text with `m` characters before it. -/
def later (m : Nat) : DecodeError → DecodeError
  | .digit off c => .digit (m + off) c
  | .alignment off => .alignment (m + off)

@[simp] theorem kindOf_later (m : Nat) (e : DecodeError) : kindOf (later m e) = kindOf e := by cases e <;> rfl

@[simp] theorem charOf_later (m : Nat) (e : DecodeError) : charOf (later m e) = charOf e := by cases e <;> rfl

@[simp] theorem offsetOf_later (m : Nat) (e : DecodeError) : offsetOf (later m e) = m + offsetOf e := by cases e <;> rfl

/-- R129: the check at end of stream records the length of the text. -/
theorem alignment_of_textResult {n off : Nat} {x : Except (Nat × Byte) (List Byte × Option Nibble)}
    (h : textResult n x = .error (.alignment off)) : off = n := by
  obtain ⟨i, c⟩ | ⟨bs, _ | v⟩ := x <;> cases h
  rfl

/-- R106: the result of a text cut in two, the first part of which decodes. -/
theorem textResult_add (m n : Nat) (x : Except (Nat × Byte) (List Byte × Option Nibble)) (as : List Byte) :
    textResult (m + n) ((x.mapError (Prod.map (m + ·) id)).map (Prod.map (as ++ ·) id)) =
      ((textResult n x).mapError (later m)).map (as ++ ·) := by
  obtain ⟨off, c⟩ | ⟨bs, _ | v⟩ := x <;> rfl

/-! A CHUNK that decodes with stream scope and whose commit the sink accepts in full -/

/-- In `s` a CHUNK `l` in direction 1 with stream scope is accepted, has its data, and has a sink that accepts its commit. -/
structure Decodes (l : BitVec 24) (s : State) : Prop where
  inv : Invariants s
  live : s.status.state ≠ .error
  dir : s.decoding = true
  scope : s.chunkScope = false
  legal : l.toNat ≤ s.pchunk.toNat
  data : l.toNat ≤ s.dataIn.length
  plan : AcceptsAll s s.sinkPlan

/-- What DEC_STEP makes of `cs` in the session of `s` (R99). -/
def decodeIn (s : State) (cs : List Byte) : Except (Nat × Byte) (List Byte × Option Nibble) :=
  decodeFrom s.strict s.lower s.mixed (pendOf (sessionOf s)) 0 cs

/-- In `t` an error has ended the session at the text's error `e`, the text's first character standing at IN_COUNT `start` (R128, R129,
R132). -/
structure Failed (start : Count) (e : DecodeError) (t : State) : Prop where
  status : t.status = ⟨.error, kindOf e, false⟩
  inCount : t.inCount = start + BitVec.ofNat 64 (offsetOf e)
  errOffset : t.errOffset = t.inCount
  errChar : t.errChar = charOf e

/-- R128: a CHUNK ends at its first character that is neither a digit nor a skipped newline. -/
theorem Decodes.failed_digit {l : BitVec 24} {s : State} (h : Decodes l s) {i : Nat} {c : Byte}
    (hdec : decodeIn s (s.dataIn.take l.toNat) = .error (i, c)) :
    Failed (sessionOf s).inCount (.digit i c) (runChunk l s) := by
  obtain ⟨bs, q, -, -, hraise⟩ := stageChunk_invalidDigit h.inv h.dir hdec
  rw [runChunk, hraise]
  exact ⟨rfl, rfl, rfl, rfl⟩

/-- R129: a CHUNK shorter than P_CHUNK_MAX ends in an error when its characters leave a nibble pending. -/
theorem Decodes.failed_alignment {l : BitVec 24} {s : State} (h : Decodes l s) {bs : List Byte} {v : Nibble}
    (hdec : decodeIn s (s.dataIn.take l.toNat) = .ok (bs, some v)) (hlt : l.toNat < s.pchunk.toNat) :
    Failed (sessionOf s).inCount (.alignment l.toNat) (runChunk l s) := by
  rw [runChunk, stageChunk_invalidAlignment h.inv h.dir h.data hdec (.inl hlt)]
  exact ⟨rfl, rfl, rfl, rfl⟩

/-- In `t` the session `u` is still open, `n` characters on, which completed the bytes `bs` and left `q` pending. -/
structure StillOpen (u : State) (n : Nat) (bs : List Byte) (q : Option Nibble) (t : State) : Prop where
  gained : Gained u n bs t
  status : t.status = ⟨.active, .none, false⟩
  pend : pendOf t = q
  lastNl : t.lastNl = lastNlAfter u.lastNl bs

section
variable {l : BitVec 24} {s : State} {bs : List Byte} {q : Option Nibble} (h : Decodes l s)
  (hdec : decodeIn s (s.dataIn.take l.toNat) = .ok (bs, q)) (hq : l.toNat < s.pchunk.toNat → q = none)
include h hdec hq

/-- R109, R116: everything staged is delivered. -/
theorem Decodes.runChunk_eq :
    runChunk l s = answered .accepted (BitVec.ofNat 32 (decodedOutput l s bs).length)
      (endChunk (endsStream l s) (delivered (decodedOutput l s bs).length (decodedChunk l s bs q))) := by
  have haccept : planned (decodedChunk l s bs q) (decodedOutput l s bs).length = (decodedOutput l s bs).length := by
    have hplan : (decodedChunk l s bs q).sinkPlan = s.sinkPlan := sessionOf_sinkPlan s
    rw [planned, hplan]
    exact planned_of_acceptsAll h.plan (decodedOutput_length_lt h.inv h.legal hdec).le
  have hend : endsStream l (decodedChunk l s bs q) = endsStream l s :=
    congrArg (fun c : Word => decide (l.toNat < c.toNat)) (sessionOf_pchunk s)
  rw [runChunk, stageChunk_decoding h.inv h.dir h.data hdec (by simpa [h.scope] using hq)]
  dsimp only
  rw [hend, commitChunk_full _ (by rwa [decodedChunk_obuf]), decodedChunk_obuf]

/-- R117: the CHUNK ends the session or leaves it open. -/
theorem Decodes.status :
    (runChunk l s).status = if l.toNat < s.pchunk.toNat then ⟨.idle, .none, true⟩ else ⟨.active, .none, false⟩ := by
  have hsession : (delivered (decodedOutput l s bs).length (decodedChunk l s bs q)).status = ⟨s.status.state, .none, false⟩ :=
    sessionOf_status h.inv h.live
  rw [h.runChunk_eq hdec hq]
  by_cases hlt : l.toNat < s.pchunk.toNat <;> simp [answered, endChunk, endsStream, hlt, hsession]

theorem Decodes.gained : Gained (sessionOf s) l.toNat (decodedOutput l s bs) (runChunk l s) := by
  have hsink : (delivered (decodedOutput l s bs).length (decodedChunk l s bs q)).sink = (sessionOf s).sink ++ decodedOutput l s bs := by
    show (sessionOf s).sink ++ (decodedChunk l s bs q).obuf.take _ = _
    rw [decodedChunk_obuf, List.take_length]
  rw [h.runChunk_eq hdec hq]
  cases endsStream l s <;> exact ⟨hsink, rfl, rfl⟩

/-- R114: a CHUNK shorter than P_CHUNK_MAX ends the session, after the terminal newline. -/
theorem Decodes.ended (hlt : l.toNat < s.pchunk.toNat) :
    Gained (sessionOf s) l.toNat (bs ++ terminalNewline s.term (lastNlAfter (sessionOf s).lastNl bs)) (runChunk l s) ∧
      (runChunk l s).status = ⟨.idle, .none, true⟩ := by
  have hgained := h.gained hdec hq
  rw [decodedOutput, if_pos hlt] at hgained
  exact ⟨hgained, (h.status hdec hq).trans (if_pos hlt)⟩

/-- R106, R117: a full CHUNK leaves the session open. -/
theorem Decodes.stillOpen (hfull : ¬ l.toNat < s.pchunk.toNat) : StillOpen (sessionOf s) l.toNat bs q (runChunk l s) := by
  have hout : decodedOutput l s bs = bs := by simp [decodedOutput, hfull]
  have hpend : pendOf (decodedChunk l s bs q) = q := pendOf_decoded (session l.toNat s) l.toNat bs q
  refine ⟨hout ▸ h.gained hdec hq, (h.status hdec hq).trans (if_neg hfull), ?_, ?_⟩
  · rw [h.runChunk_eq hdec hq]
    cases endsStream l s <;> exact hpend
  · conv_rhs => rw [← hout]
    rw [h.runChunk_eq hdec hq]
    cases endsStream l s <;> rfl

end

/-! What a STREAM's text makes of the session before it -/

/-- The result of the bytes of a STREAM still to come (R106). -/
def remainingResult (s : State) : Except DecodeError (List Byte) := textResult s.dataIn.length (decodeIn s s.dataIn)

/-- What the STREAM of `s` has done in `t`, by the result of its text (R106, R115, R133). -/
def StreamDone (s t : State) : Except DecodeError (List Byte) → Prop
  | .ok bs => Gained (sessionOf s) s.dataIn.length (bs ++ terminalNewline s.term (lastNlAfter (sessionOf s).lastNl bs)) t ∧ Ended t
  | .error e => Failed (sessionOf s).inCount e t ∧ t.cmdIn = []

theorem decodeIn_popped (s : State) (rest : List HostInput) (cs : List Byte) : decodeIn (popped s rest) cs = decodeIn s cs := by
  rw [decodeIn, sessionOf_popped]
  rfl

/-- R133: in ERROR every legal CHUNK is refused and nothing else happens. -/
theorem stepN_refused (ns : List Nat) {s : State} (he : s.status.state = .error) (hl : ∀ n ∈ ns, n ≤ s.pchunk.toNat)
    (hin : s.cmdIn = ns.map chunkWord) : ∃ rs, stepN ns.length s = .next { s with cmdIn := [], responses := rs } := by
  induction ns generalizing s with
  | nil => exact ⟨s.responses, by rw [List.length_nil, stepN, ← List.map_nil (f := chunkWord), ← hin]⟩
  | cons n ns ih =>
    obtain ⟨hn, hns⟩ := List.forall_mem_cons.1 hl
    have hlegal : fieldsLegal (.chunk (BitVec.ofNat 24 n)) (popped s (ns.map chunkWord)) = true :=
      decide_eq_true ((BitVec.toNat_ofNat n 24).trans_le ((Nat.mod_le _ _).trans hn))
    have hdenied : permitted (.chunk (BitVec.ofNat 24 n)) s.status.state = false := by rw [he]; rfl
    have hstep : step s = .next (answered .rejState 0 (popped s (ns.map chunkWord))) :=
      (stepRunsDecodedCommand s _ _ _ hin (decodeOfEncode _) (.inr fun _ _ => .inr (.inl he))).trans
        (exec_of_not_permitted hlegal hdenied)
    obtain ⟨rs, hrun⟩ := ih (s := answered .rejState 0 (popped s (ns.map chunkWord))) he hns rfl
    exact ⟨rs, (stepN_succ_of_next ns.length hstep).trans hrun⟩

/-- R82: the lengths of STREAM's CHUNKs for `n` bytes. -/
def streamLengths (c n : Nat) : List Nat := List.replicate (n / c) c ++ [n % c]

theorem streamWords_eq_map (c n : Nat) : streamWords c n = (streamLengths c n).map chunkWord := by
  simp [streamWords, streamLengths, chunkWord]

theorem streamLengths_length (c n : Nat) : (streamLengths c n).length = streamLength c n := by
  simp [streamLengths, streamLength]

theorem le_of_mem_streamLengths {c n m : Nat} (hc : 0 < c) (h : m ∈ streamLengths c n) : m ≤ c := by
  obtain hfull | hlast := List.mem_append.1 h
  · exact (List.eq_of_mem_replicate hfull).le
  · exact (List.mem_singleton.1 hlast).trans_le (Nat.mod_lt n hc).le

/-- R133: once a full CHUNK has raised an error, the rest of the STREAM is refused. -/
theorem Streams.stepN_after_error {s : State} (h : Streams s) (hle : s.pchunk.toNat ≤ s.dataIn.length)
    (he : (afterFull s).status.state = .error) :
    ∃ rs, stepN (streamLength s.pchunk.toNat s.dataIn.length) s = .next { afterFull s with cmdIn := [], responses := rs } := by
  have hpos : 0 < s.pchunk.toNat := h.inv.chunkMax.1
  have hpc : (afterFull s).pchunk = s.pchunk := runChunk_pchunk _ _
  have hin := (runChunk_cmdIn _ _ : (afterFull s).cmdIn = _).trans (streamWords_eq_map _ _)
  obtain ⟨rs, hrun⟩ := stepN_refused _ he (fun n hn => hpc ▸ le_of_mem_streamLengths hpos hn) hin
  refine ⟨rs, ?_⟩
  rw [streamLength_of_le hpos hle, stepN_succ_of_next _ (h.step_full hle), ← hrun, streamLengths_length]

/-- `s` stands before a command of a STREAM in direction 1 with stream scope. -/
structure TextStreams (s : State) : Prop extends Streams s where
  dir : s.decoding = true
  scope : s.chunkScope = false

section
variable {s : State} (h : TextStreams s)
include h

theorem TextStreams.decodes {n : Nat} (hl : n ≤ s.pchunk.toNat) (hn : n ≤ s.dataIn.length) (rest : List HostInput) :
    Decodes (BitVec.ofNat 24 n) (popped s rest) := by
  have hL := chunkLength_toNat h.inv hl
  exact ⟨invariants_popped h.inv rest, h.live, h.dir, h.scope, hL.trans_le hl, hL.trans_le hn, h.plan⟩

/-- What the CHUNK of the next `n` characters decodes. -/
theorem TextStreams.decodeIn_chunk {n : Nat} (hl : n ≤ s.pchunk.toNat) (rest : List HostInput) :
    decodeIn (popped s rest) ((popped s rest).dataIn.take (BitVec.ofNat 24 n).toNat) = decodeIn s (s.dataIn.take n) := by
  rw [decodeIn_popped, chunkLength_toNat h.inv hl]
  rfl

/-- R128 in a STREAM. -/
theorem TextStreams.failed_digit {n i : Nat} {c : Byte} (hl : n ≤ s.pchunk.toNat) (hn : n ≤ s.dataIn.length) (rest : List HostInput)
    (hdec : decodeIn s (s.dataIn.take n) = .error (i, c)) :
    Failed (sessionOf s).inCount (.digit i c) (runChunk (BitVec.ofNat 24 n) (popped s rest)) := by
  have hfail := (h.decodes hl hn rest).failed_digit ((h.decodeIn_chunk hl rest).trans hdec)
  rwa [sessionOf_popped] at hfail

/-- R106, R114, R129: the CHUNK that ends the STREAM. -/
theorem TextStreams.done_last (hlt : s.dataIn.length < s.pchunk.toNat) : StreamDone s (afterLast s) (remainingResult s) := by
  have hL := chunkLength_toNat h.inv hlt.le
  have hshort := hL.trans_lt hlt
  have hchunk := h.decodes hlt.le le_rfl []
  have hdec := h.decodeIn_chunk hlt.le []
  have hcmd : (afterLast s).cmdIn = [] := runChunk_cmdIn _ _
  have htake : s.dataIn.take s.dataIn.length = s.dataIn := List.take_length
  rw [htake] at hdec
  rw [remainingResult]
  match hres : decodeIn s s.dataIn with
  | .error (i, c) => exact ⟨h.failed_digit hlt.le le_rfl [] (htake.symm ▸ hres), hcmd⟩
  | .ok (bs, some v) =>
    have hfail := hchunk.failed_alignment (hdec.trans hres) hshort
    rw [hL, sessionOf_popped] at hfail
    exact ⟨hfail, hcmd⟩
  | .ok (bs, none) =>
    obtain ⟨hgained, hstatus⟩ := hchunk.ended (hdec.trans hres) (fun _ => rfl) hshort
    rw [hL, sessionOf_popped] at hgained
    exact ⟨⟨hgained.sink, hgained.inCount, hgained.outCount⟩, hstatus, hcmd,
      (runChunk_dataIn _ _).trans (List.drop_eq_nil_of_le hL.ge)⟩

/-- R106, R117: a full CHUNK of characters that decode. -/
theorem TextStreams.stillOpen (hle : s.pchunk.toNat ≤ s.dataIn.length) {bs : List Byte} {q : Option Nibble}
    (hdec : decodeIn s (s.dataIn.take s.pchunk.toNat) = .ok (bs, q)) :
    StillOpen (sessionOf s) s.pchunk.toNat bs q (afterFull s) := by
  have hL := chunkLength_toNat h.inv le_rfl
  have hopen := (h.decodes le_rfl hle (streamWords s.pchunk.toNat (s.dataIn.length - s.pchunk.toNat))).stillOpen
    ((h.decodeIn_chunk le_rfl _).trans hdec) (absurd · hL.not_lt) hL.not_lt
  rw [hL, sessionOf_popped] at hopen
  obtain ⟨⟨hsink, hin, hout⟩, hstatus, hpend, hnl⟩ := hopen
  exact ⟨⟨hsink, hin, hout⟩, hstatus, hpend, hnl⟩

/-- It leaves a STREAM of the characters after it. -/
theorem TextStreams.after_full (hle : s.pchunk.toNat ≤ s.dataIn.length) (hlive : (afterFull s).status.state ≠ .error) :
    TextStreams (afterFull s) where
  toStreams := h.toStreams.after_full hle hlive
  dir := by rw [State.decoding, afterFull, runChunk_cfg]; exact h.dir
  scope := by rw [State.chunkScope, afterFull, runChunk_cfg]; exact h.scope

section
variable (hle : s.pchunk.toNat ≤ s.dataIn.length) {bs : List Byte} {q : Option Nibble}
  (hopen : StillOpen (sessionOf s) s.pchunk.toNat bs q (afterFull s))
include hle hopen

/-- R106: the result of a STREAM is that of its full CHUNK and of the STREAM after it. -/
theorem TextStreams.remainingResult_full (hdec : decodeIn s (s.dataIn.take s.pchunk.toNat) = .ok (bs, q)) :
    remainingResult s = ((remainingResult (afterFull s)).mapError (later s.pchunk.toNat)).map (bs ++ ·) := by
  have hcfg : (afterFull s).cfg = s.cfg := runChunk_cfg _ _
  have hlen : s.dataIn.length = s.pchunk.toNat + (afterFull s).dataIn.length := by
    rw [h.afterFull_dataIn, List.length_drop, Nat.add_sub_cancel' hle]
  have hnext : decodeIn (afterFull s) (afterFull s).dataIn = decodeFrom s.strict s.lower s.mixed q 0 (s.dataIn.drop s.pchunk.toNat) := by
    rw [decodeIn, sessionOf_of_not_idle (by simp [hopen.status]), hopen.pend, h.afterFull_dataIn]
    simp only [State.strict, State.lower, State.mixed, hcfg]
  have hwhole : decodeIn s s.dataIn = ((decodeIn (afterFull s) (afterFull s).dataIn).mapError
      (Prod.map (s.pchunk.toNat + ·) id)).map (Prod.map (bs ++ ·) id) := by
    rw [hnext, ← decodeFrom_add, Nat.add_zero]
    conv_lhs => rw [decodeIn, ← List.take_append_drop s.pchunk.toNat s.dataIn]
    rw [decodeFrom_append_of_ok hdec, Nat.zero_add, List.length_take_of_le hle]
  rw [remainingResult, hwhole, hlen, textResult_add, remainingResult]

/-- What the rest of a STREAM has done after its full CHUNK, the whole STREAM has done (R106). -/
theorem TextStreams.done_full {t : State} {r : Except DecodeError (List Byte)} (hdone : StreamDone (afterFull s) t r) :
    StreamDone s t ((r.mapError (later s.pchunk.toNat)).map (bs ++ ·)) := by
  have hsession : sessionOf (afterFull s) = afterFull s := sessionOf_of_not_idle (by simp [hopen.status])
  cases r with
  | error e =>
    obtain ⟨⟨hstatus, hcount, hoff, hchar⟩, hcmd⟩ := hdone
    rw [hsession, hopen.gained.inCount] at hcount
    refine ⟨⟨?_, ?_, hoff, ?_⟩, hcmd⟩
    · rw [hstatus, kindOf_later]
    · rw [hcount, offsetOf_later, BitVec.ofNat_add, BitVec.add_assoc]
    · rw [hchar, charOf_later]
  | ok as =>
    obtain ⟨hrest, hended⟩ := hdone
    have hterm : (afterFull s).term = s.term := by rw [State.term, afterFull, runChunk_cfg]; rfl
    rw [hsession, hopen.lastNl, ← lastNlAfter_append, hterm, h.afterFull_dataIn, List.length_drop] at hrest
    have hboth := hopen.gained.trans hrest
    rw [Nat.add_sub_cancel' hle, ← List.append_assoc] at hboth
    exact ⟨hboth, hended⟩

end

/-- R106, R133: the STREAM delivers its text's bytes or ends with its text's first error. -/
theorem TextStreams.done :
    ∃ t, stepN (streamLength s.pchunk.toNat s.dataIn.length) s = .next t ∧ StreamDone s t (remainingResult s) := by
  induction hn : s.dataIn.length using Nat.strong_induction_on generalizing s with
  | _ n ih =>
    subst hn
    have hpos : 0 < s.pchunk.toNat := h.inv.chunkMax.1
    rcases Nat.lt_or_ge s.dataIn.length s.pchunk.toNat with hlt | hle
    · refine ⟨afterLast s, ?_, h.done_last hlt⟩
      rw [streamLength_of_lt hlt, stepN_succ_of_next 0 (h.step_last hlt), stepN]
    · match hdec : decodeIn s (s.dataIn.take s.pchunk.toNat) with
      | .error (i, c) =>
        have hfail : Failed _ (.digit i c) (afterFull s) := h.failed_digit le_rfl hle _ hdec
        obtain ⟨rs, hrun⟩ := h.stepN_after_error hle (congrArg Status.state hfail.status)
        have hwhole : decodeIn s s.dataIn = .error (i, c) := by
          rw [decodeIn, ← List.take_append_drop s.pchunk.toNat s.dataIn]
          exact decodeFrom_append_of_error hdec _
        rw [remainingResult, hwhole]
        exact ⟨_, hrun, ⟨hfail.status, hfail.inCount, hfail.errOffset, hfail.errChar⟩, rfl⟩
      | .ok (bs, q) =>
        have hopen := h.stillOpen hle hdec
        have hlen : (afterFull s).dataIn.length = s.dataIn.length - s.pchunk.toNat := by
          rw [h.afterFull_dataIn, List.length_drop]
        obtain ⟨t, hrun, hdone⟩ := ih _ (by omega) (h.after_full hle (by simp [hopen.status])) hlen
        refine ⟨t, ?_, ?_⟩
        · rw [streamLength_of_le hpos hle, stepN_succ_of_next _ (h.step_full hle), ← hrun, afterFull, runChunk_pchunk]
          rfl
        · rw [h.remainingResult_full hle hopen hdec]
          exact h.done_full hle hopen hdone

end

/-- R110: the session a STREAM of `data` opens in IDLE. -/
theorem sessionOf_streaming {s : State} (hidle : s.status.state = .idle) (data : List Byte) (plan : List Nat) :
    sessionOf (streaming s data plan) = { streaming s data plan with
      pendValid := false, pendNib := 0, lineBytes := 0, lastNl := false, inCount := 0, outCount := 0,
      status := { s.status with done := false } } := if_pos hidle

/-- R106: a STREAM from IDLE has done what its text's result says. -/
theorem streaming_done {s : State} {plan : List Nat} (hi : Invariants s) (hidle : s.status.state = .idle) (hd : s.decoding = true)
    (hscope : s.chunkScope = false) (hplan : AcceptsAll s plan) (data : List Byte) :
    ∃ t, stepN (streamLength s.pchunk.toNat data.length) (streaming s data plan) = .next t ∧
      StreamDone (streaming s data plan) t (decodeText s.strict s.lower s.mixed data) := by
  have hresult : remainingResult (streaming s data plan) = decodeText s.strict s.lower s.mixed data := by
    rw [remainingResult, decodeIn, sessionOf_streaming hidle, decodeText_eq_textResult]
    rfl
  have hstream : TextStreams (streaming s data plan) := ⟨streams_streaming hi (by simp [hidle]) hplan data, hd, hscope⟩
  exact hresult ▸ hstream.done

/-- Settles O40: STREAM, CHUNK by CHUNK, delivers the bytes of the whole text. -/
theorem streamDecodes : Obligations.StreamDecodes := by
  intro s data plan bs hi hidle hd hscope hplan hdec out
  obtain ⟨t, hrun, hdone⟩ := streaming_done hi hidle hd hscope hplan data
  rw [hdec] at hdone
  obtain ⟨hgained, hended⟩ := hdone
  rw [sessionOf_streaming hidle] at hgained
  refine ⟨t, hrun, hgained.sink, hended.status, ?_, ?_, hended.cmdIn, hended.dataIn⟩
  · exact hgained.inCount.trans (BitVec.zero_add _)
  · exact hgained.outCount.trans (BitVec.zero_add _)

/-- Settles O41: the CHUNK that holds the text's first error latches it, and the commands after it are refused. -/
theorem streamReportsFirstError : Obligations.StreamReportsFirstError := by
  intro s data plan e hi hidle hd hscope hplan hdec
  obtain ⟨t, hrun, hdone⟩ := streaming_done hi hidle hd hscope hplan data
  rw [hdec] at hdone
  obtain ⟨hfail, hcmd⟩ := hdone
  rw [sessionOf_streaming hidle] at hfail
  have hcount : t.inCount = BitVec.ofNat 64 (offsetOf e) := hfail.inCount.trans (BitVec.zero_add _)
  have hoffset := hfail.errOffset.trans hcount
  refine ⟨t, hrun, hcmd, ?_⟩
  cases e with
  | digit off c => exact ⟨hfail.status, hoffset, hfail.errChar, hcount⟩
  | alignment off => exact ⟨hfail.status, hoffset, hfail.errChar, alignment_of_textResult hdec, hcount⟩

end Sys2Proof.Machine

/-! CHUNK (R109 to R117): whether its commit delivers everything or is short, the state its staging reached says the rest. -/

namespace Sys2Proof.Machine

open Sys2Proof.Safety

/-- R110: staging leaves STATUS as the session's opening left it, until it raises. -/
theorem status_of_stageChunk_going {l : BitVec 24} {s t : State} (hi : Invariants s) (he : s.status.state ≠ .error)
    (hn : l.toNat ≤ s.dataIn.length) (hgo : stageChunk l s = .going t) : t.status = ⟨s.status.state, .none, false⟩ := by
  obtain ⟨-, henc⟩ | ⟨-, bs, q, -, -, hdec⟩ | ⟨-, kind, off, ch, i, bs, q, -, -, hraise⟩ := stageChunk_cases hi hn
  · obtain rfl : encodedChunk l s = t := Run.going.inj (henc.symm.trans hgo)
    exact sessionOf_status hi he
  · obtain rfl : decodedChunk l s bs q = t := Run.going.inj (hdec.symm.trans hgo)
    exact sessionOf_status hi he
  · cases hraise.symm.trans hgo

/-- R113: P_CHUNK_MAX does not change while a CHUNK is staged. -/
theorem endsStream_of_stageChunk_going {l : BitVec 24} {s t : State} (hgo : stageChunk l s = .going t) :
    endsStream l t = decide (l.toNat < s.pchunk.toNat) := by
  have hpchunk : (stageChunk l s).state.pchunk = s.pchunk :=
    (kept_stageChunk l s).pchunk.trans (openIfIdle_cases (fun u => u.pchunk = s.pchunk) rfl rfl)
  rw [hgo, state_going] at hpchunk
  rw [endsStream, hpchunk]

@[simp] theorem delivered_status (k : Nat) (s : State) : (delivered k s).status = s.status := rfl

/-- STATUS after a CHUNK that raised nothing (R117). -/
def statusAfter (l : BitVec 24) (s : State) : Status :=
  if l.toNat < s.pchunk.toNat then ⟨.idle, .none, true⟩ else ⟨.active, .none, false⟩

section
variable {l : BitVec 24} {s t : State} (hgo : stageChunk l s = .going t)
include hgo

/-- R109, R116, R117: a CHUNK that raises nothing, all of whose staged bytes the sink accepts. -/
theorem runChunk_of_full_commit (hi : Invariants s) (he : s.status.state ≠ .error) (hn : l.toNat ≤ s.dataIn.length)
    (hfull : planned t t.obuf.length = t.obuf.length) :
    runChunk l s = answered .accepted (BitVec.ofNat 32 t.obuf.length)
      { delivered t.obuf.length t with status := statusAfter l s } := by
  have hstatus := status_of_stageChunk_going hi he hn hgo
  have hend : endChunk (endsStream l t) (delivered t.obuf.length t) =
      { delivered t.obuf.length t with status := statusAfter l s } := by
    rw [endsStream_of_stageChunk_going hgo]
    by_cases hlt : l.toNat < s.pchunk.toNat <;> simp [endChunk, statusAfter, hlt, hstatus]
  rw [runChunk, hgo]
  dsimp only
  rw [commitChunk_full _ hfull, hend]

/-- R116, R130, R132: a CHUNK that raises nothing before its commit, which is short. -/
theorem runChunk_of_short_commit (hshort : planned t t.obuf.length < t.obuf.length) :
    runChunk l s = answered .accepted (BitVec.ofNat 32 (planned t t.obuf.length))
      { delivered (planned t t.obuf.length) t with
        status := ⟨.error, .ioFailure, false⟩
        errOffset := t.outCount + BitVec.ofNat 64 (planned t t.obuf.length)
        errChar := 0x01 } := by
  rw [runChunk, hgo]
  exact commitChunk_short _ hshort

end

/-! Direction 0 -/

/-- What an encoding CHUNK leaves when the sink has accepted `k` of the bytes it staged, before its status is set. -/
theorem delivered_encodedChunk {l : BitVec 24} {s : State} (k : Nat) (hi : Invariants s) (hn : l.toNat ≤ s.dataIn.length) :
    delivered k (encodedChunk l s) =
      { sessionOf s with
        lineBytes := lineAt s.wrap s.pwrap (sessionOf s).lineBytes ((sessionOf s).lineBytes.toNat + l.toNat)
        lastNl := decide (l.toNat < s.pchunk.toNat)
        inCount := (sessionOf s).inCount + BitVec.ofNat 64 l.toNat
        outCount := (sessionOf s).outCount + BitVec.ofNat 64 k
        dataIn := s.dataIn.drop l.toNat
        sinkPlan := s.sinkPlan.tail
        sink := s.sink ++ (encodedOutput l s).take k } := by
  have hobuf : s.obufRev = [] := obuf_eq_nil.1 hi.obufEmpty
  rw [delivered, planAfter, encodedChunk_obuf, if_neg (mt List.length_eq_zero_iff.1 (encodedOutput_ne_nil hi hn))]
  simp [encodedChunk, hobuf]

/-- Settles O25: the text staged is `encodedOutput`, and the sink accepts it all. -/
theorem chunkEncodeDelivers : Obligations.ChunkEncodeDelivers := by
  intro l s hi he hd hl hn u short out hfull
  have hout : out = encodedOutput l s := by simp [out, short, u, encodedOutput]
  rw [hout] at hfull ⊢
  rw [exec_chunk_runs hl he hn, runChunk_of_full_commit (stageChunk_encoding hi hd hn) hi he hn
    (by rwa [planned_encodedChunk, encodedChunk_obuf]), encodedChunk_obuf, delivered_encodedChunk _ hi hn, List.take_length]
  simp [statusAfter, lineAt, short, u]

/-- Settles O26: the text staged is `encodedOutput`, and the commit raises after the part of it the sink accepts. -/
theorem chunkEncodeShortWrite : Obligations.ChunkEncodeShortWrite := by
  intro l s hi he hd hl hn u short out k hshort
  have hout : out = encodedOutput l s := by simp [out, short, u, encodedOutput]
  have hk : planned (encodedChunk l s) (encodedChunk l s).obuf.length = k := by
    rw [planned_encodedChunk, encodedChunk_obuf, ← hout]
  rw [exec_chunk_runs hl he hn, runChunk_of_short_commit (stageChunk_encoding hi hd hn)
    (by rwa [hk, encodedChunk_obuf, ← hout]), hk, delivered_encodedChunk _ hi hn, ← hout]
  rfl

/-! Direction 1 -/

theorem planned_decodedChunk (l : BitVec 24) (s : State) (bs : List Byte) (q : Option Nibble) (n : Nat) :
    planned (decodedChunk l s bs q) n = planned s n := by
  simp only [planned, decodedChunk, sessionOf_sinkPlan]

/-- What a decoding CHUNK leaves when the sink has accepted `k` of the bytes it staged, before its status is set. -/
theorem delivered_decodedChunk {l : BitVec 24} {s : State} (bs : List Byte) (q : Option Nibble) (k : Nat) (hi : Invariants s) :
    delivered k (decodedChunk l s bs q) =
      { sessionOf s with
        pendValid := q.isSome
        pendNib := q.getD 0
        lastNl := lastNlAfter (sessionOf s).lastNl (decodedOutput l s bs)
        inCount := (sessionOf s).inCount + BitVec.ofNat 64 l.toNat
        outCount := (sessionOf s).outCount + BitVec.ofNat 64 k
        dataIn := s.dataIn.drop l.toNat
        sinkPlan := planAfter s (decodedOutput l s bs).length
        sink := s.sink ++ (decodedOutput l s bs).take k } := by
  have hobuf : s.obufRev = [] := obuf_eq_nil.1 hi.obufEmpty
  rw [delivered, decodedChunk_obuf]
  simp [decodedChunk, planAfter, hobuf]

/-- Settles O27: the bytes staged are `decodedOutput`, and the sink accepts them all. -/
theorem chunkDecodeDelivers : Obligations.ChunkDecodeDelivers := by
  intro l s bs q hi he hd hl hn u short out hdec hq hfull
  have hout : out = decodedOutput l s bs := by simp [out, short, u, decodedOutput]
  have hgo : stageChunk l s = .going (decodedChunk l s bs q) :=
    stageChunk_decoding hi hd hn hdec (by simpa [short] using hq)
  rw [hout] at hfull ⊢
  rw [exec_chunk_runs hl he hn, runChunk_of_full_commit hgo hi he hn (by rwa [planned_decodedChunk, decodedChunk_obuf]),
    decodedChunk_obuf, delivered_decodedChunk bs q _ hi, List.take_length]
  simp [statusAfter, short, u]

/-- Settles O28: the bytes staged are `decodedOutput`, and the commit raises after those the sink accepts; it offers at least one, so
it uses up an entry of the sink's plan. -/
theorem chunkDecodeShortWrite : Obligations.ChunkDecodeShortWrite := by
  intro l s bs q hi he hd hl hn u short out k hdec hq hshort
  have hout : out = decodedOutput l s bs := by simp [out, short, u, decodedOutput]
  have hgo : stageChunk l s = .going (decodedChunk l s bs q) :=
    stageChunk_decoding hi hd hn hdec (by simpa [short] using hq)
  have hk : planned (decodedChunk l s bs q) (decodedChunk l s bs q).obuf.length = k := by
    rw [planned_decodedChunk, decodedChunk_obuf, ← hout]
  have hplan : planAfter s out.length = s.sinkPlan.tail := if_neg (Nat.ne_zero_of_lt hshort)
  rw [exec_chunk_runs hl he hn, runChunk_of_short_commit hgo (by rwa [hk, decodedChunk_obuf, ← hout]), hk,
    delivered_decodedChunk bs q _ hi, ← hout, hplan]
  rfl

/-! Every CHUNK -/

/-- Settles O31: a CHUNK that has its data runs, and `runChunk_answers` says what it keeps. -/
theorem chunkCompletes : Obligations.ChunkCompletes := by
  intro l s hl he hn
  obtain ⟨rdata, u, hrun, hresp, hdata, hobuf, hsink, hkept⟩ := runChunk_answers l s
  have hanswer : (answered .accepted rdata u).responses = s.responses ++ [⟨rspWord .accepted u.status, rdata⟩] :=
    congrArg (· ++ _) hresp
  refine ⟨answered .accepted rdata u, ?_, hdata, hobuf, hsink, ⟨rdata, hanswer⟩, hkept⟩
  rw [exec_chunk_runs hl he hn, hrun]

/-- R148: a legal CHUNK outside ERROR that answers has its data and has run. -/
theorem exec_chunk_next_of_accepted {l : BitVec 24} {s t : State} (hl : l.toNat ≤ s.pchunk.toNat) (he : s.status.state ≠ .error)
    (h : exec (.chunk l) s = .next t) : l.toNat ≤ s.dataIn.length ∧ t = runChunk l s := by
  rw [exec_of_permitted (by simpa [fieldsLegal] using hl) (permitted_chunk.2 he)] at h
  simp only [effect, dataShort, decide_eq_true_eq] at h
  split at h
  · cases h
  · rename_i hn
    exact ⟨Nat.not_lt.1 hn, (Host.Outcome.next.inj h).symm⟩

/-- R117: a CHUNK that runs has raised an error, while it staged or in its commit, or it ends in the status its length gives. -/
theorem runChunk_status {l : BitVec 24} {s : State} (hi : Invariants s) (he : s.status.state ≠ .error)
    (hn : l.toNat ≤ s.dataIn.length) :
    ((runChunk l s).status.err ≠ .none ∧ (runChunk l s).status.state = .error ∧ (runChunk l s).status.done = false) ∨
      (runChunk l s).status = statusAfter l s := by
  cases hst : stageChunk l s with
  | raised t =>
    obtain ⟨hstate, herr, hdone, -⟩ := latched_of_stageChunk hst
    rw [runChunk, hst]
    exact .inl ⟨herr, hstate, hdone⟩
  | going t =>
    rcases (planned_le t t.obuf.length).lt_or_eq with hshort | hfull
    · rw [runChunk_of_short_commit hst hshort]
      exact .inl ⟨by simp [answered], rfl, rfl⟩
    · rw [runChunk_of_full_commit hst hi he hn hfull]
      exact .inr rfl

/-- Settles O32: in ERROR a CHUNK is refused; outside it, it has run. -/
theorem chunkTransitions : Obligations.ChunkTransitions := by
  intro l s t hi hl h
  refine ⟨fun he => ?_, fun he => ?_⟩
  · obtain ⟨hn, rfl⟩ := exec_chunk_next_of_accepted hl he h
    refine (runChunk_status hi he hn).imp_right fun hstatus => ?_
    rw [hstatus, statusAfter]
    rcases hl.lt_or_eq with hlt | heq
    · rw [if_pos hlt]
      exact .inr ⟨rfl, hlt, rfl, rfl⟩
    · rw [if_neg heq.not_lt]
      exact .inl ⟨rfl, heq, rfl, rfl⟩
  · rw [exec_of_not_permitted (by simpa [fieldsLegal] using hl) (by simp [he, permitted])] at h
    obtain rfl := Host.Outcome.next.inj h
    exact ⟨rfl, rfl⟩

end Sys2Proof.Machine

/-! The permission table (R120) and the control commands NOP, CFG, ABORT, IOERR and RDREG (R122 to R126). -/

namespace Sys2Proof.Machine

open Sys2Proof.Safety

/-! Permission (R120) -/

theorem permitted_ioerr {k : IoSide} {st : SessionState} : permitted (.ioerr k) st = true ↔ st ≠ .error := by
  cases st <;> simp [permitted]

/-- R120 as a whole: CFG, CHUNK and IOERR are the commands with a condition on the state. -/
theorem permitted_iff {i : Instr} {st : SessionState} :
    permitted i st = true ↔
      (∀ v, i = .cfg v → st = .idle) ∧ (∀ l, i = .chunk l → st ≠ .error) ∧ ∀ k, i = .ioerr k → st ≠ .error := by
  cases i with
  | cfg v => simp [permitted_cfg]
  | chunk l => simp [permitted_chunk]
  | ioerr k => simp [permitted_ioerr]
  | nop | lutN2c | lutC2n | abort | rdreg => simp [permitted]

/-- R120: CFG is refused outside IDLE. -/
theorem exec_cfg_refused {s : State} (hs : s.status.state ≠ .idle) (v : BitVec 7) :
    exec (.cfg v) s = .next (answered .rejState 0 s) :=
  exec_of_not_permitted rfl (Bool.eq_false_iff.2 (mt permitted_cfg.1 hs))

/-- R120: a legal CHUNK is refused in ERROR. -/
theorem exec_chunk_refused {l : BitVec 24} {s : State} (hs : s.status.state = .error) (hl : l.toNat ≤ s.pchunk.toNat) :
    exec (.chunk l) s = .next (answered .rejState 0 s) :=
  exec_of_not_permitted (decide_eq_true hl) (Bool.eq_false_iff.2 fun h => permitted_chunk.1 h hs)

/-- R120, R125: IOERR is refused in ERROR. -/
theorem exec_ioerr_refused {s : State} (hs : s.status.state = .error) (k : IoSide) :
    exec (.ioerr k) s = .next (answered .rejState 0 s) :=
  exec_of_not_permitted rfl (Bool.eq_false_iff.2 fun h => permitted_ioerr.1 h hs)

/-- R75, R76, R77: a command that is legal and permitted, and answers, answers ACCEPTED. -/
theorem exec_of_permitted_response {i : Instr} {s t : State} (hl : fieldsLegal i s = true) (hp : permitted i s.status.state = true)
    (h : exec i s = .next t) : ∃ rdata, t.responses = s.responses ++ [⟨rspWord .accepted t.status, rdata⟩] := by
  rw [exec_of_permitted hl hp] at h
  obtain ⟨rdata, u, rfl, hresp, -⟩ := effect_next hl h
  exact ⟨rdata, congrArg (· ++ _) hresp⟩

/-- Settles O16: the three refusals are the table's, and a command that meets none of their conditions is permitted. -/
theorem permissionTable : Obligations.PermissionTable := by
  refine ⟨fun v _ hs => exec_cfg_refused hs v, fun _ _ hs hl => exec_chunk_refused hs hl, fun k _ hs => exec_ioerr_refused hs k, ?_⟩
  intro i s t hwf hcfg hchunk hioerr h
  exact exec_of_permitted_response ((fieldsLegal_eq_wellFormed i s).trans hwf) (permitted_iff.2 ⟨hcfg, hchunk, hioerr⟩) h

/-! NOP and CFG (R122, R123) -/

/-- Settles O17: NOP is legal and permitted in every state, and its effect is its answer. -/
theorem nopOnlyAnswers : Obligations.NopOnlyAnswers := fun _ => exec_of_permitted rfl rfl

/-- Settles O18: CFG is permitted in IDLE, and writes V zero-extended. -/
theorem cfgWritesConfiguration : Obligations.CfgWritesConfiguration := by
  intro v s hs
  have hzext : v.setWidth 32 = BitVec.ofNat 32 v.toNat := (BitVec.ofNat_toNat 32 v).symm
  rw [exec_of_permitted rfl (permitted_cfg.2 hs), effect, accept_eq_answered, hzext]

/-! ABORT and IOERR (R124, R125) -/

/-- Settles O19: a command has exactly one word, ABORT's is 0x50000000, and ABORT is permitted in every state. -/
theorem abortReturnsToIdle : Obligations.AbortReturnsToIdle :=
  ⟨fun _ => decode_eq_ok_iff.trans eq_comm, fun _ => exec_of_permitted rfl rfl⟩

/-- R125: outside ERROR IOERR raises IOFailure and answers. -/
theorem exec_ioerr {s : State} (hs : s.status.state ≠ .error) (k : IoSide) :
    exec (.ioerr k) s = .next (answered .accepted 0 (raiseIo k s)) :=
  exec_of_permitted rfl (permitted_ioerr.2 hs)

/-- Settles O20: each side of IOERR has exactly one word, raises its own record outside ERROR (`raiseIo`), and is refused in ERROR. -/
theorem ioerrLatchesIoFailure : Obligations.IoerrLatchesIoFailure :=
  ⟨fun _ => ⟨decode_eq_ok_iff.trans eq_comm, decode_eq_ok_iff.trans eq_comm⟩,
    fun _ hs => ⟨exec_ioerr hs .read, exec_ioerr hs .write⟩, fun k _ hs => exec_ioerr_refused hs k⟩

/-! RDREG (R126): the registers as numbers -/

theorem loHalf_toNat (c : Count) : (loHalf c).toNat = c.toNat % 2 ^ 32 := by
  rw [loHalf, BitVec.extractLsb'_toNat, Nat.shiftRight_zero]

theorem hiHalf_toNat (c : Count) : (hiHalf c).toNat = c.toNat / 2 ^ 32 := by
  have hfit := c.isLt
  rw [hiHalf, BitVec.extractLsb'_toNat, Nat.shiftRight_eq_div_pow]
  omega

/-- R34: DEC_PEND as a number. -/
theorem decPendWord_toNat (valid : Bool) (nib : Nibble) : (decPendWord valid nib).toNat = valid.toNat + 2 * nib.toNat := by
  obtain ⟨hvalid, hbit⟩ := bit_toNat valid
  have hnib : (nib.setWidth 32).toNat = nib.toNat := BitVec.toNat_setWidth_of_le (by decide)
  have hfit := nib.isLt
  rw [decPendWord, or_shiftLeft_toNat 1 (by omega) (by omega), hvalid, hnib, pow_one]

/-- The registers in the order of their indices (R47). -/
def registers : List RegName :=
  [.status, .cfg, .res, .decPend, .lineBytes, .lastNl, .errChar, .errOffsetLo, .errOffsetHi, .inCountLo, .inCountHi, .outCountLo,
    .outCountHi, .pchunk, .pwrap]

/-- R47: the index map is the position in that order. -/
theorem regOfIndex_eq_getElem? (idx : Byte) : regOfIndex idx = registers[idx.toNat]? := by
  unfold regOfIndex
  generalize idx.toNat = n
  obtain hlt | hge := n.lt_or_ge 15
  · interval_cases n <;> rfl
  · obtain ⟨m, rfl⟩ := Nat.exists_eq_add_of_le' hge
    rfl

/-- R47: every register reads as the number its fields' places give it. -/
theorem registerNumbers_eq_map (s : State) : registerNumbers s = registers.map fun r => (readReg r s).toNat := by
  have herrChar : (s.errChar.setWidth 32).toNat = s.errChar.toNat := BitVec.toNat_setWidth_of_le (by decide)
  simp only [registers, List.map_cons, List.map_nil, readReg, registerNumbers, status_word_toNat, decPendWord_toNat, bit_toNat,
    herrChar, loHalf_toNat, hiHalf_toNat]

/-- R126: RDREG of an index that names a register returns its value, in every state. -/
theorem exec_rdreg {idx : Byte} {r : RegName} (hr : registers[idx.toNat]? = some r) (s : State) :
    exec (.rdreg idx) s = .next (answered .accepted (readReg r s) s) := by
  obtain ⟨hlt, -⟩ := List.getElem?_eq_some_iff.1 hr
  have hlegal : fieldsLegal (.rdreg idx) s = true := decide_eq_true (Nat.le_of_lt_succ hlt)
  rw [exec_of_permitted hlegal rfl]
  simp only [effect, regOfIndex_eq_getElem?, hr, accept_eq_answered]

/-- Settles O21: the number at an index is the value of the register there, which RDREG returns. -/
theorem rdregReadsRegister : Obligations.RdregReadsRegister := by
  intro idx s v hv
  rw [registerNumbers_eq_map, List.getElem?_map, Option.map_eq_some_iff] at hv
  obtain ⟨r, hr, rfl⟩ := hv
  rw [BitVec.ofNat_toNat, BitVec.setWidth_eq]
  exact ⟨exec_rdreg hr s, (readReg r s).isLt⟩

end Sys2Proof.Machine

/-! Errors and waiting (60_exceptions.md): a CHUNK that raises while it stages (R128, R129), the error latch (R133, R135), an empty
command port (R142). -/

namespace Sys2Proof.Machine

open Sys2Proof.Safety

/-! A decoding CHUNK that raises (R111, R132) -/

/-- What an error raised after `i` characters leaves: the registers as those characters left them, and nothing staged. -/
theorem raiseError_decoded_session {s : State} (hi : Invariants s) (n i : Nat) (bs : List Byte) (q : Option Nibble) (kind : ErrKind)
    (off : Count) (ch : Byte) :
    raiseError kind off ch (decoded (session n s) i bs q) =
      { sessionOf s with
        status := ⟨.error, kind, false⟩
        pendValid := q.isSome
        pendNib := q.getD 0
        lastNl := lastNlAfter (sessionOf s).lastNl bs
        errChar := ch
        errOffset := off
        inCount := (sessionOf s).inCount + BitVec.ofNat 64 i
        dataIn := s.dataIn.drop n } := by
  have hobuf : s.obufRev = [] := obuf_eq_nil.1 hi.obufEmpty
  simp [raiseError, decoded, session, hobuf]

/-- R132: an accepted CHUNK whose staging raises answers ACCEPTED with RDATA = 0 and commits nothing. -/
theorem exec_chunk_of_raised {l : BitVec 24} {s t : State} (hl : l.toNat ≤ s.pchunk.toNat) (he : s.status.state ≠ .error)
    (hn : l.toNat ≤ s.dataIn.length) (hraise : stageChunk l s = .raised t) :
    exec (.chunk l) s = .next (answered .accepted 0 t) := by
  rw [exec_chunk_runs hl he hn, runChunk, hraise]
  rfl

/-- Settles O29: staging raises at the first invalid character (`stageChunk_invalidDigit`), so the CHUNK ends there. -/
theorem chunkInvalidDigit : Obligations.ChunkInvalidDigit := by
  intro l s i c hi he hd hl hn u hdec
  obtain ⟨bs, q, hpre, hchar, hraise⟩ := stageChunk_invalidDigit hi hd hdec
  refine ⟨bs, q, hpre, hchar, ?_⟩
  rw [exec_chunk_of_raised hl he hn hraise, raiseError_decoded_session hi]

/-- Settles O30: staging raises at the alignment check (`stageChunk_invalidAlignment`), which follows the chunk's last character. -/
theorem chunkInvalidAlignment : Obligations.ChunkInvalidAlignment := by
  intro l s bs h hi he hd hl hn u hdec hcheck
  rw [exec_chunk_of_raised hl he hn (stageChunk_invalidAlignment hi hd hn hdec hcheck), raiseError_decoded_session hi]
  rfl

/-! The error latch (R133, R135) -/

/-- R120, R133: in ERROR a command that is not ABORT answers, and writes at most RES. -/
theorem exec_in_error {i : Instr} {s t : State} (hs : s.status.state = .error) (hne : i ≠ .abort) (h : exec i s = .next t) :
    ∃ acc rdata res, t = answered acc rdata { s with res := res } := by
  cases executed_of_exec h with
  | answer => exact ⟨_, _, s.res, rfl⟩
  | lutN2c n => exact ⟨_, _, _, rfl⟩
  | lutC2n ch => exact ⟨_, _, _, rfl⟩
  | cfg v hidle => cases hs.symm.trans hidle
  | chunk l _ hlive => exact absurd hs hlive
  | abort => exact absurd rfl hne
  | ioerr k => exact ⟨_, _, s.res, Host.Outcome.next.inj (h.symm.trans (exec_ioerr_refused hs k))⟩

/-- Settles O47: a command in ERROR writes at most RES (`exec_in_error`), which the latch does not hold. -/
theorem errorLatchHolds : Obligations.ErrorLatchHolds := by
  intro i s t hs hne h
  obtain ⟨acc, rdata, res, rfl⟩ := exec_in_error hs hne h
  exact ⟨rfl, rfl, rfl, rfl, rfl, rfl, rfl, rfl, rfl, rfl, rfl⟩

/-! An empty command port (R142, R144) -/

/-- Settles O8: with no input a step is `waitForCommand`, which keeps the state. -/
theorem waitingKeepsState : Obligations.WaitingKeepsState := by
  intro s hin
  unfold step
  rw [hin]
  rfl

end Sys2Proof.Machine

/-! Reset (70_reset_and_hazards.md): between commands and behind a CHUNK that waits (R143), and when a CHUNK has no step (R148). -/

namespace Sys2Proof.Machine

open Sys2Proof.Safety

/-! A command that has no step (R148) -/

/-- R75: a refusal answers, so what stops has passed both checks and stops in its own effect. -/
theorem afterChecks_eq_fault_iff {i : Instr} {s : State} {run : State → Host.Outcome State Fault Refusal} {f : Fault} :
    afterChecks i s run = .fault f ↔ fieldsLegal i s = true ∧ permitted i s.status.state = true ∧ run s = .fault f := by
  cases hl : fieldsLegal i s with
  | false => simp [afterChecks_of_illegal hl]
  | true =>
    cases hp : permitted i s.status.state with
    | false => simp [afterChecks_of_not_permitted hl hp]
    | true => simp [afterChecks_of_permitted hl hp]

/-- R148: the effect of a CHUNK stops exactly when its data are short. -/
theorem effect_chunk_eq_fault_iff {l : BitVec 24} {s : State} :
    effect (.chunk l) s = .fault .chunkDataAwaited ↔ s.dataIn.length < l.toNat := by
  by_cases hshort : s.dataIn.length < l.toNat <;> simp [effect, dataShort, hshort]

/-- Settles O12: CHUNK stops when it passes both checks and its effect stops (`afterChecks_eq_fault_iff`). -/
theorem chunkStuckExactlyWithoutData : Obligations.ChunkStuckExactlyWithoutData := by
  intro l s
  rw [exec_eq_afterChecks, afterChecks_eq_fault_iff, permitted_chunk, effect_chunk_eq_fault_iff, fieldsLegal, decide_eq_true_eq]

/-! The reset input (R143) -/

/-- R143, R148: a reset behind a command that waits for data cuts it. -/
theorem resetCuts_of_awaitsData {i : Instr} {s : State} {rest : List HostInput} (hwait : awaitsData i s = true)
    (hin : s.cmdIn = .reset :: rest) : resetCuts i s = some (cutByReset s) := by
  simp [resetCuts, hwait, hin]

/-- R143: the word of a command that a reset cuts ends in the reset state, and is not executed. -/
theorem runWord_of_cut {w : Word} {i : Instr} {s t : State} (hdec : decode w = .ok i) (hcut : resetCuts i s = some t) :
    runWord w s = .next t := by
  unfold runWord
  simp only [hdec, hcut]

/-- Settles O11: the CHUNK waits (`awaitsData_iff`), so the reset behind it cuts it, and the cut is reset with the port emptied. -/
theorem resetCutsWaitingChunk : Obligations.ResetCutsWaitingChunk := by
  intro s l rest hin hlegal hstate hshort
  have hwait : awaitsData (.chunk l) (popped s (.reset :: rest)) = true := awaitsData_iff.2 ⟨l, rfl, hlegal, hstate, hshort⟩
  rw [step_of_word hin, runWord_of_cut (decodeOfEncode _) (resetCuts_of_awaitsData hwait rfl)]
  rfl

/-- Settles O10: a step takes reset off the command stream and resets. -/
theorem stepTakesReset : Obligations.StepTakesReset := by
  intro s rest hin
  rw [← dropInput_eq_popped hin]
  unfold step
  rw [hin]

end Sys2Proof.Machine
